-- ==== Sys2Proof/Word.lean ====
section
/-! DEFINITION. The byte (00_scope.md R9) and the four wire constants (30_encoding.md R60), which are "fixed, part of
the protocol, not configurable". -/

namespace Sys2Proof

/-- An unsigned 8-bit value (R9). The block only compares bytes for equality. -/
abbrev Byte := BitVec 8

/-- `FEND`, "Frame END: marks start and end of a frame" (R60). -/
abbrev fend : Byte := 0xC0#8

/-- `FESC`, "Frame ESCAPE: introduces an escaped literal" (R60). -/
abbrev fesc : Byte := 0xDB#8

/-- `TFEND`, "Transposed FEND: escaped representation of a literal 0xC0 byte" (R60). -/
abbrev tfend : Byte := 0xDC#8

/-- `TFESC`, "Transposed FESC: escaped representation of a literal 0xDB byte" (R60). -/
abbrev tfesc : Byte := 0xDD#8

end Sys2Proof
end

