-- ==== Sys2Proof/Config.lean ====
section
/-! DEFINITION. The one architectural parameter of the block (00_scope.md R6) and the free values of the model. -/

namespace Sys2Proof

/-- The configuration, fixed when the block is built and changed by no command (R6, R192). -/
structure Config where
  /-- `MAX_FRAME`: the capacity in bytes of the decode buffer and the largest payload length of a frame. -/
  maxFrame : Nat
  deriving DecidableEq, Repr

/-- `MAX_FRAME >= 1` (R6); a capacity of 0 "is refused" (decision D3, 93_implementation_defined.md K10). -/
abbrev Config.Legal (c : Config) : Prop := 1 ≤ c.maxFrame

/-- Building a block of a given capacity: 0 is refused, every other capacity is legal (D3, K10). -/
def Config.ofMaxFrame? (n : Nat) : Option Config :=
  if 1 ≤ n then some ⟨n⟩ else none

/-- The reference value of `MAX_FRAME` (R6, decision D3). -/
def Config.reference : Config := ⟨255⟩

/-- FREE VALUE (log entry 4): `resetByte n a` is what cell `a` of the decode buffer holds after the `n`-th RESET until
an append writes it. The spec leaves it unspecified, "a draw; never assumed zero" (10_state.md R34, K6, D7). It has no
body, so nothing can be proved about its value. -/
opaque Config.resetByte : Nat → Nat → Byte

end Sys2Proof
end

