-- ==== Sys2Proof/Syntax.lean ====
section
/-! DEFINITION. The instructions of the block: one constructor per row of spec/opcode_table.json. They are the byte
classes of the decoder (30_encoding.md R66), the source-byte classes of the encoder (R76) and the host's commands
(00_scope.md R8). -/

namespace Sys2Proof

/-- One constructor per row of the opcode table, in the table's order. -/
inductive Instr where
  /-- OPEN, `0xC0` in Idle (R91). -/
  | openFrame
  /-- NOISE, any byte but `0xC0` in Idle; `v` is the byte, discarded (R92). -/
  | noise (v : Byte)
  /-- ESC_PREFIX, `0xDB` in InFrame (R93). -/
  | escPrefix
  /-- CLOSE, `0xC0` in InFrame with something buffered (R94). -/
  | closeFrame
  /-- RESTART, `0xC0` in InFrame with nothing buffered (R95). -/
  | restart
  /-- DATA, any byte but `0xC0` and `0xDB` in InFrame with room for it; `v` is the byte appended (R96). -/
  | data (v : Byte)
  /-- DATA_OVF, the same byte with the buffer full; `v` is consumed and not stored (R97). -/
  | dataOvf (v : Byte)
  /-- ESC_END, `0xDC` in InFrameEscape with room for the literal `0xC0` (R98). -/
  | escEnd
  /-- ESC_ESC, `0xDD` in InFrameEscape with room for the literal `0xDB` (R99). -/
  | escEsc
  /-- ESC_OVF, `0xDC` or `0xDD` in InFrameEscape with the buffer full; `x` is bit 0 of the byte `1101110x` (R100). -/
  | escOvf (x : BitVec 1)
  /-- BAD_ESC, any byte but `0xDC` and `0xDD` in InFrameEscape; `v` is the violating byte (R101). -/
  | badEsc (v : Byte)
  /-- SRC_FEND, source byte `0xC0` of an ENC (R142). -/
  | srcFend
  /-- SRC_FESC, source byte `0xDB` of an ENC (R143). -/
  | srcFesc
  /-- SRC_PLAIN, any other source byte `v` of an ENC (R144). -/
  | srcPlain (v : Byte)
  /-- DEC_BYTE(b) (R120). -/
  | decByte (b : Byte)
  /-- DEC_BUF(bytes) (R121). -/
  | decBuf (bytes : List Byte)
  /-- DEC_READ(addr) (R123). -/
  | decRead (addr : Nat)
  /-- ENC_SIZE(src) (R140). -/
  | encSize (src : List Byte)
  /-- ENC(src, dst_cap) (R141). -/
  | enc (src : List Byte) (dstCap : Nat)
  /-- RESET (R190). -/
  | reset
  deriving DecidableEq, Repr

end Sys2Proof
end

