-- ==== Sys2Proof/WellFormed.lean ====
section
/-! DEFINITION. Which terms of `Instr` stand for a row of the opcode table: a catch-all row never holds a value that an
earlier row of its context takes (the table's `excludes` column, 30_encoding.md R75). -/

namespace Sys2Proof

/-- The check on operands. Every operand not named here may have every value: the commands take any byte, list and
number (R120, R121, R140, R141; the bound of DEC_READ depends on `MAX_FRAME` and is its meaning's, R123). -/
def Instr.wellFormed : Instr → Bool
  | .noise v => v != fend
  | .data v | .dataOvf v | .srcPlain v => v != fend && v != fesc
  | .badEsc v => v != tfend && v != tfesc
  | .openFrame | .escPrefix | .closeFrame | .restart | .escEnd | .escEsc | .escOvf _ | .srcFend | .srcFesc
  | .decByte _ | .decBuf _ | .decRead _ | .encSize _ | .enc _ _ | .reset => true

/-- The six rows of format CMD, which have no bit encoding (R77). -/
def Instr.isCommand : Instr → Bool
  | .decByte _ | .decBuf _ | .decRead _ | .encSize _ | .enc _ _ | .reset => true
  | .openFrame | .noise _ | .escPrefix | .closeFrame | .restart | .data _ | .dataOvf _ | .escEnd | .escEsc
  | .escOvf _ | .badEsc _ | .srcFend | .srcFesc | .srcPlain _ => false

end Sys2Proof
end

