-- ==== Sys2Proof/Decode.lean ====
section
/-! DEFINITION. Decoding a wire byte in its context (30_encoding.md R66, R75, R76; 40_decoder_steps.md R90), the encoder
of instructions, and the opcode table itself as data. Commands have no bit encoding (R77) and are not decoded. -/

namespace Sys2Proof

/-- The three states of the decoder (10_state.md R24): `(in_frame, in_escape)` is `(0, 0)`, `(1, 0)`, `(1, 1)`. The
fourth pair is "unrepresentable" (R24, decision D16). -/
inductive Fsm where
  | idle
  | inFrame
  | inFrameEscape
  deriving DecidableEq, Repr

/-- What selects the row of a byte beside its value (R66, R75): for the decoder its state, the write cursor and
`MAX_FRAME`; for a source byte only that it is one. -/
inductive Ctx where
  | dec (fsm : Fsm) (wcur maxFrame : Nat)
  | enc
  deriving DecidableEq, Repr

/-- The eleven arms of the decode step (R90), each with its operand. -/
inductive DecClass where
  | openFrame
  | noise (v : Byte)
  | escPrefix
  | closeFrame
  | restart
  | data (v : Byte)
  | dataOvf (v : Byte)
  | escEnd
  | escEsc
  | escOvf (x : BitVec 1)
  | badEsc (v : Byte)
  deriving DecidableEq, Repr

/-- The three emit steps of the encoder (R76), each with its operand. -/
inductive EncClass where
  | srcFend
  | srcFesc
  | srcPlain (v : Byte)
  deriving DecidableEq, Repr

/-- Bit 0 of a byte: the `x` of the pattern `1101110x` of ESC_OVF. -/
def escBit (b : Byte) : BitVec 1 := b.extractLsb' 0 1

/-- The byte `1101110x`. -/
def escByte (x : BitVec 1) : Byte := 0b1101110#7 ++ x

/-- The selection of the arm for input byte `b` (R90, R66): the state first, then the byte, then the cursor. -/
def classify (fsm : Fsm) (wcur maxFrame : Nat) (b : Byte) : DecClass :=
  match fsm with
  | .idle => if b = fend then .openFrame else .noise b
  | .inFrame =>
    if b = fesc then .escPrefix
    else if b = fend then (if 0 < wcur then .closeFrame else .restart)
    else if wcur < maxFrame then .data b
    else .dataOvf b
  | .inFrameEscape =>
    if b = tfend ∧ wcur < maxFrame then .escEnd
    else if b = tfesc ∧ wcur < maxFrame then .escEsc
    else if b = tfend ∨ b = tfesc then .escOvf (escBit b)
    else .badEsc b

/-- The selection of the emit step for source byte `v`, by value alone (R76). -/
def classifySrc (v : Byte) : EncClass :=
  if v = fend then .srcFend else if v = fesc then .srcFesc else .srcPlain v

/-- The instruction of an arm. -/
def DecClass.toInstr : DecClass → Instr
  | .openFrame => .openFrame
  | .noise v => .noise v
  | .escPrefix => .escPrefix
  | .closeFrame => .closeFrame
  | .restart => .restart
  | .data v => .data v
  | .dataOvf v => .dataOvf v
  | .escEnd => .escEnd
  | .escEsc => .escEsc
  | .escOvf x => .escOvf x
  | .badEsc v => .badEsc v

/-- The instruction of an emit step. -/
def EncClass.toInstr : EncClass → Instr
  | .srcFend => .srcFend
  | .srcFesc => .srcFesc
  | .srcPlain v => .srcPlain v

/-- The instruction a byte is in its context. It is total: "rule R66 gives every byte value a defined effect in every
state" (R70). -/
def decodeByte (c : Ctx) (b : Byte) : Instr :=
  match c with
  | .dec fsm wcur maxFrame => (classify fsm wcur maxFrame b).toInstr
  | .enc => (classifySrc b).toInstr

/-- Why a byte string holds no instruction. -/
inductive DecodeReject where
  /-- There is no byte at all. No byte value is ever rejected (R70). -/
  | noByte
  deriving DecidableEq, Repr

/-- What decoding a byte string gives: the first instruction and the rest of the string, or a rejection by name. -/
inductive Decoded where
  | instr (i : Instr) (rest : List Byte)
  | rejected (why : DecodeReject)
  deriving DecidableEq, Repr

/-- Decoding the first instruction of a byte string: every instruction is exactly one byte (R27, R62). -/
def decode (c : Ctx) : List Byte → Decoded
  | [] => .rejected .noByte
  | b :: rest => .instr (decodeByte c b) rest

/-- The wire bytes of an instruction (the `encoding` column of the opcode table); none for a command (R77). -/
def encode : Instr → Option (List Byte)
  | .openFrame | .closeFrame | .restart | .srcFend => some [0b11000000#8]
  | .escPrefix | .srcFesc => some [0b11011011#8]
  | .escEnd => some [0b11011100#8]
  | .escEsc => some [0b11011101#8]
  | .escOvf x => some [escByte x]
  | .noise v | .data v | .dataOvf v | .badEsc v | .srcPlain v => some [v]
  | .decByte _ | .decBuf _ | .decRead _ | .encSize _ | .enc _ _ | .reset => none

/-! The opcode table as data (R75): a byte `b` selects a row when `(b AND mask) = match`; the rows of one context are
tried in ascending priority and the first that matches and whose `cond` holds wins. -/

/-- The `cond` column. -/
inductive RowCond where
  | always
  | buffered
  | unbuffered
  | room
  | full
  deriving DecidableEq, Repr

/-- The `context` column of the byte rows. -/
inductive RowCtx where
  | dec (fsm : Fsm)
  | enc
  deriving DecidableEq, Repr

/-- Whether a condition holds at a cursor value. -/
def RowCond.holds (k : RowCond) (wcur maxFrame : Nat) : Bool :=
  match k with
  | .always => true
  | .buffered => decide (0 < wcur)
  | .unbuffered => decide (wcur = 0)
  | .room => decide (wcur < maxFrame)
  | .full => decide (wcur = maxFrame)

/-- Whether a row of this `context` and `cond` applies in `c`. -/
def RowCtx.covers (r : RowCtx) (k : RowCond) (c : Ctx) : Bool :=
  match r, c with
  | .dec fsm, .dec fsm' wcur maxFrame => fsm == fsm' && k.holds wcur maxFrame
  | .enc, .enc => true
  | .dec _, .enc => false
  | .enc, .dec _ _ _ => false

/-- Where an instruction's row applies: its `context` and `cond` columns. A command is never read from the wire (R77). -/
def Instr.appliesIn (i : Instr) (c : Ctx) : Bool :=
  match i with
  | .openFrame | .noise _ => (RowCtx.dec .idle).covers .always c
  | .escPrefix => (RowCtx.dec .inFrame).covers .always c
  | .closeFrame => (RowCtx.dec .inFrame).covers .buffered c
  | .restart => (RowCtx.dec .inFrame).covers .unbuffered c
  | .data _ => (RowCtx.dec .inFrame).covers .room c
  | .dataOvf _ => (RowCtx.dec .inFrame).covers .full c
  | .escEnd | .escEsc => (RowCtx.dec .inFrameEscape).covers .room c
  | .escOvf _ => (RowCtx.dec .inFrameEscape).covers .full c
  | .badEsc _ => (RowCtx.dec .inFrameEscape).covers .always c
  | .srcFend | .srcFesc | .srcPlain _ => RowCtx.enc.covers .always c
  | .decByte _ | .decBuf _ | .decRead _ | .encSize _ | .enc _ _ | .reset => false

/-- One byte row of spec/opcode_table.json: `pattern` is its `match` column, `build` puts the operand in. -/
structure Row where
  context : RowCtx
  pattern : Byte
  mask : Byte
  cond : RowCond
  build : Byte → Instr

/-- The rows of the Idle context by priority. -/
def rowsIdle : List Row :=
  [⟨.dec .idle, 0xC0#8, 0xFF#8, .always, fun _ => .openFrame⟩,
   ⟨.dec .idle, 0x00#8, 0x00#8, .always, .noise⟩]

/-- The rows of the InFrame context by priority. -/
def rowsInFrame : List Row :=
  [⟨.dec .inFrame, 0xDB#8, 0xFF#8, .always, fun _ => .escPrefix⟩,
   ⟨.dec .inFrame, 0xC0#8, 0xFF#8, .buffered, fun _ => .closeFrame⟩,
   ⟨.dec .inFrame, 0xC0#8, 0xFF#8, .unbuffered, fun _ => .restart⟩,
   ⟨.dec .inFrame, 0x00#8, 0x00#8, .room, .data⟩,
   ⟨.dec .inFrame, 0x00#8, 0x00#8, .full, .dataOvf⟩]

/-- The rows of the InFrameEscape context by priority. -/
def rowsInFrameEscape : List Row :=
  [⟨.dec .inFrameEscape, 0xDC#8, 0xFF#8, .room, fun _ => .escEnd⟩,
   ⟨.dec .inFrameEscape, 0xDD#8, 0xFF#8, .room, fun _ => .escEsc⟩,
   ⟨.dec .inFrameEscape, 0xDC#8, 0xFE#8, .full, fun b => .escOvf (escBit b)⟩,
   ⟨.dec .inFrameEscape, 0x00#8, 0x00#8, .always, .badEsc⟩]

/-- The rows of the encoder by priority. -/
def rowsEnc : List Row :=
  [⟨.enc, 0xC0#8, 0xFF#8, .always, fun _ => .srcFend⟩,
   ⟨.enc, 0xDB#8, 0xFF#8, .always, fun _ => .srcFesc⟩,
   ⟨.enc, 0x00#8, 0x00#8, .always, .srcPlain⟩]

/-- All byte rows of the opcode table. -/
def opcodeTable : List Row := rowsIdle ++ rowsInFrame ++ rowsInFrameEscape ++ rowsEnc

/-- Whether a row is of a context, its condition holds there and it matches the byte. -/
def Row.selects (r : Row) (c : Ctx) (b : Byte) : Bool :=
  (b &&& r.mask) == r.pattern && r.context.covers r.cond c

/-- "A decoder written from the table" (R75): the first row that selects the byte. -/
def decodeByTable (c : Ctx) (b : Byte) : Option Instr :=
  (opcodeTable.find? (fun r => r.selects c b)).map (fun r => r.build b)

/-- The state in which a byte given with no context is read (log entry 11): the context of the first row of the opcode
table that matches all eight bits of the byte, and Idle, the state after reset, where no such row exists. -/
def bareFsm (b : Byte) : Fsm :=
  if b = fend then .idle
  else if b = fesc then .inFrame
  else if b = tfend ∨ b = tfesc then .inFrameEscape
  else .idle

/-- The instruction the decoder reads from the bits `w` of a row of `nbits` bits given with no context (log entry 11).
An instruction with an encoding is one byte; a command has none. -/
def decodeTableWord (nbits w : Nat) : Option Instr :=
  if nbits = 8 ∧ w < 256 then
    some (decodeByte (.dec (bareFsm (BitVec.ofNat 8 w)) 0 Config.reference.maxFrame) (BitVec.ofNat 8 w))
  else none

end Sys2Proof
end

