-- ==== Sys2Proof/Machine/State.lean ====
section
/-! DEFINITION. The state of the block (10_state.md R20, R24) with its configuration (R6), the host's side of the
interface (00_scope.md R7, R8) and the model's counter of resets. Plain data throughout. -/

namespace Sys2Proof.Machine

/-- One of the block's byte spaces (20_memory.md R40): the cells written so far, in ascending order of index and no
index twice. A cell that is not listed holds no value known to the model. -/
abbrev Memory := List Host.Cell

/-- The canonical form: indices strictly rise. An unlisted index reads as no value, so no entry can equal it. -/
abbrev Memory.wf (m : Memory) : Prop := m.Pairwise (fun x y => x.1 < y.1)

/-- The events of 60_exceptions.md R160. -/
inductive Event where
  /-- `NONE`: nothing was raised. -/
  | noEvent
  /-- `BAD_ESCAPE` (R161). -/
  | badEscape
  /-- `FRAME_TOO_LARGE` (R162). -/
  | frameTooLarge
  /-- `ENC_CAPACITY` (R163). -/
  | encCapacity
  deriving DecidableEq, Repr

/-- The result of one decode step (00_scope.md R11): the length of the frame it completed, if any, and its event. -/
structure StepResult where
  frame : Option Nat
  event : Event
  deriving DecidableEq, Repr

/-- The result of one command (30_encoding.md R74). RESET returns none (R190). -/
inductive Result where
  /-- Of one decode step, hence of DEC_BYTE: `(frame, event)` (R120). -/
  | step (frame : Option Nat) (event : Event)
  /-- Of DEC_BUF: `(frame, consumed, events)` (R122). -/
  | buf (frame : Option Nat) (consumed : Nat) (events : List (Nat × Event))
  /-- Of DEC_READ: the byte (R123). -/
  | read (byte : Byte)
  /-- Of ENC_SIZE: the size (R140). -/
  | size (n : Nat)
  /-- Of ENC: `(written, error)` (R141). -/
  | enc (written : Nat) (error : Event)
  deriving DecidableEq, Repr

/-- What a run shows of one command (70_reset_and_hazards.md R207, 30_encoding.md R74): its result and the bytes it
makes readable, `dbuf[0 .. len)` of a completed frame or `dst[0 .. written)` of an ENC. -/
structure Observed where
  result : Result
  content : List Byte
  deriving DecidableEq, Repr

/-- The six commands of the host (00_scope.md R8). -/
inductive Command where
  | decByte (b : Byte)
  | decBuf (bytes : List Byte)
  | decRead (addr : Nat)
  | encSize (src : List Byte)
  | enc (src : List Byte) (dstCap : Nat)
  | reset
  deriving DecidableEq, Repr

/-- The quantities of an ENC in progress that its emit steps use (42_encoder.md R141), "local to one command"
(10_state.md R33): the destination index and the capacity. -/
structure EncRun where
  j : Nat
  cap : Nat
  deriving DecidableEq, Repr

/-- Everything a step reads or writes. The block's own state is `fsm`, `wcur` and `dbuf` (R20, R24). -/
structure State where
  /-- `MAX_FRAME`, fixed (R6; log entry 3). -/
  cfg : Config
  /-- The decoder's state, which encodes `in_frame` and `in_escape` (R24). -/
  fsm : Fsm
  /-- The write cursor (R23). -/
  wcur : Nat
  /-- The decode buffer (R25): the cells written since the last RESET. -/
  dbuf : Memory
  /-- How many RESET commands came before, for the free value of unwritten cells (log entry 5). -/
  epoch : Nat
  /-- The host's destination space DST (R40; log entry 6). -/
  dst : Memory
  /-- The ENC in progress; none between commands (log entry 7). -/
  enc : Option EncRun
  /-- The commands the host has issued and the block has not yet performed, in order (R49; log entry 1). -/
  pending : List Command
  /-- What the commands so far have returned, oldest first (R207; log entry 2). -/
  results : List Observed
  deriving DecidableEq, Repr

/-- Why the machine stops with a fault. -/
inductive Fault where
  /-- Raised by an emit step (SRC_FEND, SRC_FESC, SRC_PLAIN) that would write at or beyond `dst_cap`, an index DST does
  not have (20_memory.md R40, R44). No command reaches it, since ENC checks first (R147). Safe. -/
  | dstBound
  deriving DecidableEq, Repr

/-- Why an instruction is refused. -/
inductive Refusal where
  /-- Raised by `exec` alone, for an instruction the model gives no meaning; no arm does. Safe. -/
  | notModelled (mnemonic : String)
  /-- Raised by a byte row of the opcode table run where its context, operand or condition does not select it
  (40_decoder_steps.md R90, 42_encoder.md R141; log entry 8). No step reaches it. Safe. -/
  | rowNotSelected
  deriving DecidableEq, Repr

/-- The state right after RESET of a block built with configuration `c` (R34): between frames, every cell of the buffer
unspecified. The host's fields are empty (log entries 1, 2, 6, 7), the counter of resets is 0 (log entry 5). -/
def State.resetWith (c : Config) : State where
  cfg := c
  fsm := .idle
  wcur := 0
  dbuf := []
  epoch := 0
  dst := []
  enc := none
  pending := []
  results := []

/-- The state right after RESET of the reference configuration, `MAX_FRAME` = 255 (R6, D3; log entry 3). -/
def State.reset : State := State.resetWith Config.reference

end Sys2Proof.Machine
end

