-- ==== Sys2Proof/Machine/Flags.lean ====
section
/-! DEFINITION. The two flags as views of the decoder's state (10_state.md R21, R22, R24), and the numbers of the events
(60_exceptions.md R160). The block has no other flag (R28). -/

namespace Sys2Proof.Machine

/-- `in_frame` (R21, R24). -/
def inFrameOf : Fsm → Bool
  | .idle => false
  | .inFrame => true
  | .inFrameEscape => true

/-- `in_escape` (R22, R24). -/
def inEscapeOf : Fsm → Bool
  | .idle => false
  | .inFrame => false
  | .inFrameEscape => true

/-- The state a pair of flags `(in_frame, in_escape)` encodes; `(0, 1)` "is not a state of the block" (R24). -/
def fsmOfFlags (inFrame inEscape : Bool) : Option Fsm :=
  match inFrame, inEscape with
  | false, false => some .idle
  | true, false => some .inFrame
  | true, true => some .inFrameEscape
  | false, true => none

/-- The flag `in_frame` of a state. -/
def State.inFrame (s : State) : Bool := inFrameOf s.fsm

/-- The flag `in_escape` of a state. -/
def State.inEscape (s : State) : Bool := inEscapeOf s.fsm

/-- The code of an event (R160). The numbers are labels and nothing depends on them (D6). -/
def eventCode : Event → Nat
  | .noEvent => 0
  | .badEscape => 1
  | .frameTooLarge => 2
  | .encCapacity => 3

end Sys2Proof.Machine
end

