-- ==== Sys2Proof/Machine/Operands.lean ====
section
/-! DEFINITION. The operand forms: the escape table (30_encoding.md R63, R64), the wire image of a
payload (R61, R64), and the context an input byte is read in (R66). -/

namespace Sys2Proof.Machine

/-- The source bytes that need escaping (R64, R140). -/
def needsEscape (v : Byte) : Bool := v == fend || v == fesc

/-- The wire image of one payload byte (R63). -/
def image (v : Byte) : List Byte :=
  if v = fend then [fesc, tfend] else if v = fesc then [fesc, tfesc] else [v]

/-- The canonical wire string of a non-empty payload, `FRAME(p)` (R61, R64, R73). -/
def wireFrame (p : List Byte) : List Byte := fend :: (p.flatMap image ++ [fend])

/-- The context in which the decoder reads its next byte (R66). -/
def State.ctx (s : State) : Ctx := .dec s.fsm s.wcur s.cfg.maxFrame

/-- The instruction a command of the host is. -/
def Command.toInstr : Command → Instr
  | .decByte b => .decByte b
  | .decBuf bytes => .decBuf bytes
  | .decRead addr => .decRead addr
  | .encSize src => .encSize src
  | .enc src dstCap => .enc src dstCap
  | .reset => .reset

end Sys2Proof.Machine
end

