-- ==== Sys2Proof/Machine/Ops.lean ====
section
/-! DEFINITION. The operations the meanings share: one byte of a space (20_memory.md R40), the append to the decode
buffer (R104), the abort (R166), the destination store (R141), and returning a result (R74). -/

namespace Sys2Proof.Machine

/-- One byte of a space, if a write has put one there. -/
def Memory.read? (m : Memory) (a : Nat) : Option Byte :=
  match m with
  | [] => none
  | c :: rest => if c.1 = a then some c.2 else Memory.read? rest a

/-- Writing one byte of a space; keeps the canonical form. -/
def Memory.write (m : Memory) (a : Nat) (v : Byte) : Memory :=
  match m with
  | [] => [(a, v)]
  | c :: rest =>
    if a < c.1 then (a, v) :: c :: rest
    else if c.1 = a then (a, v) :: rest
    else c :: Memory.write rest a v

/-- The written bytes among indices `0 .. n-1`, in ascending order. -/
def Memory.firstBytes (m : Memory) (n : Nat) : List Byte :=
  (List.range n).filterMap (fun a => Memory.read? m a)

/-- Cell `a` of the decode buffer (R25): the last byte appended there since RESET (R32), and for a cell no append has
written since, an unspecified byte (R34, K6; log entry 4). -/
def State.readDbuf (s : State) (a : Nat) : Byte :=
  (Memory.read? s.dbuf a).getD (Config.resetByte s.epoch a)

/-- `dbuf[0 .. n)` (R25). -/
def State.payload (s : State) (n : Nat) : List Byte :=
  (List.range n).map s.readDbuf

/-- `append(v)` (R104): a store at the cursor, then the cursor advances. Its callers check `wcur < MAX_FRAME`. -/
def append (v : Byte) (s : State) : State :=
  { s with dbuf := Memory.write s.dbuf s.wcur v, wcur := s.wcur + 1 }

/-- A decode step that completes no frame and raises nothing: `return (None, NONE)`. -/
def quiet (s : State) : State × StepResult := (s, ⟨none, .noEvent⟩)

/-- The decoder between frames: both flags 0 and the cursor 0 (10_state.md R26). The buffer is kept (R32). -/
def toIdle (s : State) : State := { s with fsm := .idle, wcur := 0 }

/-- The abort (60_exceptions.md R166), the one reaction to a violation: to Idle, the cursor to the start, the event set
to the cause. It saves nothing, transfers control nowhere and erases nothing. -/
def abort (cause : Event) (s : State) : State × StepResult := (toIdle s, ⟨none, cause⟩)

/-- A command returns: its result, with the bytes it makes readable, is shown to the host (R74, R207). -/
def State.report (s : State) (r : Result) (content : List Byte) : State :=
  { s with results := s.results ++ [⟨r, content⟩] }

/-- The bytes a completed frame makes readable (R25, R207). -/
def State.frameContent (s : State) (frame : Option Nat) : List Byte :=
  match frame with
  | some len => s.payload len
  | none => []

/-- A decode step returns its `(frame, event)` (R11). -/
def returnStep (p : State × StepResult) : State :=
  p.1.report (.step p.2.frame p.2.event) (p.1.frameContent p.2.frame)

/-- The outcome of a machine operation. -/
abbrev Run := Host.Outcome State Fault Refusal

/-- One operation after another (00_scope.md R10: statements take effect in order). -/
def andThen (o : Run) (f : State → Run) : Run :=
  match o with
  | .next s => f s
  | .fault r => .fault r
  | .refused r => .refused r

/-- `emit(v)` (R141): a store at the destination index of the ENC in progress, then the index advances. Outside an ENC
there is no index (log entry 8); at or beyond `dst_cap` there is no cell (log entry 9). -/
def emit (v : Byte) (s : State) : Run :=
  match s.enc with
  | none => .refused .rowNotSelected
  | some e =>
    if e.j < e.cap then .next { s with dst := Memory.write s.dst e.j v, enc := some { e with j := e.j + 1 } }
    else .fault .dstBound

end Sys2Proof.Machine
end

