-- ==== Sys2Proof/Machine/DecoderSteps.lean ====
section
/-! DEFINITION. The eleven arms of the decode step (40_decoder_steps.md). Of each, `arm…` is the arm's pseudocode and
`exec…` its instruction, run where the arm's `Operands` line selects it and refused elsewhere (log entry 8). -/

namespace Sys2Proof.Machine

/-- OPEN (R91): `in_frame <- 1; wcur <- 0`. -/
def armOpen (s : State) : State × StepResult := quiet { s with fsm := .inFrame, wcur := 0 }

/-- NOISE (R92): nothing is written. -/
def armNoise (s : State) : State × StepResult := quiet s

/-- ESC_PREFIX (R93): `in_escape <- 1`. -/
def armEscPrefix (s : State) : State × StepResult := quiet { s with fsm := .inFrameEscape }

/-- CLOSE (R94): `len <- wcur; in_frame <- 0; wcur <- 0; return (Some(len), NONE)`. -/
def armClose (s : State) : State × StepResult := (toIdle s, ⟨some s.wcur, .noEvent⟩)

/-- RESTART (R95): `wcur <- 0`. -/
def armRestart (s : State) : State × StepResult := quiet { s with wcur := 0 }

/-- DATA (R96): the byte itself is appended. -/
def armData (v : Byte) (s : State) : State × StepResult := quiet (append v s)

/-- DATA_OVF (R97): the abort with FRAME_TOO_LARGE. -/
def armDataOvf (s : State) : State × StepResult := abort .frameTooLarge s

/-- ESC_END (R98): `append(0xC0); in_escape <- 0`. -/
def armEscEnd (s : State) : State × StepResult := quiet { append fend s with fsm := .inFrame }

/-- ESC_ESC (R99): `append(0xDB); in_escape <- 0`. -/
def armEscEsc (s : State) : State × StepResult := quiet { append fesc s with fsm := .inFrame }

/-- ESC_OVF (R100): the abort with FRAME_TOO_LARGE. -/
def armEscOvf (s : State) : State × StepResult := abort .frameTooLarge s

/-- BAD_ESC (R101): the abort with BAD_ESCAPE. -/
def armBadEsc (s : State) : State × StepResult := abort .badEscape s

/-- The decode step `DSTEP(b)` (R90): one input byte, one arm, one result. -/
def dstep (b : Byte) (s : State) : State × StepResult :=
  match classify s.fsm s.wcur s.cfg.maxFrame b with
  | .openFrame => armOpen s
  | .noise _ => armNoise s
  | .escPrefix => armEscPrefix s
  | .closeFrame => armClose s
  | .restart => armRestart s
  | .data v => armData v s
  | .dataOvf _ => armDataOvf s
  | .escEnd => armEscEnd s
  | .escEsc => armEscEsc s
  | .escOvf _ => armEscOvf s
  | .badEsc _ => armBadEsc s

/-- An arm's instruction runs where the arm is selected (log entry 8). -/
def whenSelected (selected : Bool) (p : State × StepResult) : Run :=
  if selected then .next (returnStep p) else .refused .rowNotSelected

/-- OPEN (R91). -/
def execOpen (s : State) : Run :=
  whenSelected (decide (s.fsm = .idle)) (armOpen s)

/-- NOISE (R92). -/
def execNoise (v : Byte) (s : State) : Run :=
  whenSelected (decide (s.fsm = .idle ∧ v ≠ fend)) (armNoise s)

/-- ESC_PREFIX (R93). -/
def execEscPrefix (s : State) : Run :=
  whenSelected (decide (s.fsm = .inFrame)) (armEscPrefix s)

/-- CLOSE (R94). -/
def execClose (s : State) : Run :=
  whenSelected (decide (s.fsm = .inFrame ∧ 0 < s.wcur)) (armClose s)

/-- RESTART (R95). -/
def execRestart (s : State) : Run :=
  whenSelected (decide (s.fsm = .inFrame ∧ s.wcur = 0)) (armRestart s)

/-- DATA (R96). -/
def execData (v : Byte) (s : State) : Run :=
  whenSelected (decide (s.fsm = .inFrame ∧ v ≠ fend ∧ v ≠ fesc ∧ s.wcur < s.cfg.maxFrame)) (armData v s)

/-- DATA_OVF (R97). No legal state has `wcur > MAX_FRAME` (R23); there the arm is the one of R90's last `else`. -/
def execDataOvf (v : Byte) (s : State) : Run :=
  whenSelected (decide (s.fsm = .inFrame ∧ v ≠ fend ∧ v ≠ fesc ∧ s.cfg.maxFrame ≤ s.wcur)) (armDataOvf s)

/-- ESC_END (R98). -/
def execEscEnd (s : State) : Run :=
  whenSelected (decide (s.fsm = .inFrameEscape ∧ s.wcur < s.cfg.maxFrame)) (armEscEnd s)

/-- ESC_ESC (R99). -/
def execEscEsc (s : State) : Run :=
  whenSelected (decide (s.fsm = .inFrameEscape ∧ s.wcur < s.cfg.maxFrame)) (armEscEsc s)

/-- ESC_OVF (R100); its bit `x` is "not used, the frame is aborted either way" (opcode table). -/
def execEscOvf (_x : BitVec 1) (s : State) : Run :=
  whenSelected (decide (s.fsm = .inFrameEscape ∧ s.cfg.maxFrame ≤ s.wcur)) (armEscOvf s)

/-- BAD_ESC (R101), at any cursor. -/
def execBadEsc (v : Byte) (s : State) : Run :=
  whenSelected (decide (s.fsm = .inFrameEscape ∧ v ≠ tfend ∧ v ≠ tfesc)) (armBadEsc s)

end Sys2Proof.Machine
end

