-- ==== Sys2Proof/Machine/DecoderCommands.lean ====
section
/-! DEFINITION. The decoder's commands DEC_BYTE, DEC_BUF and DEC_READ (41_decoder_commands.md). -/

namespace Sys2Proof.Machine

/-- DEC_BYTE (R120): one decode step, its result returned. -/
def execDecByte (b : Byte) (s : State) : Run := .next (returnStep (dstep b s))

/-- Where a DEC_BUF stands: the state, the frame completed, the bytes consumed, the events so far (R122). -/
structure BufRun where
  state : State
  frame : Option Nat
  consumed : Nat
  events : List (Nat × Event)

/-- The events list after the step at position `pos` raised `e` (R121). -/
def noteEvent (events : List (Nat × Event)) (pos : Nat) (e : Event) : List (Nat × Event) :=
  if e = .noEvent then events else events ++ [(pos, e)]

/-- The loop of DEC_BUF (R121): one decode step a byte, until a frame completes or the list ends. -/
def bufLoop (bytes : List Byte) (pos : Nat) (events : List (Nat × Event)) (s : State) : BufRun :=
  match bytes with
  | [] => ⟨s, none, pos, events⟩
  | b :: rest =>
    match (dstep b s).2.frame with
    | some len => ⟨(dstep b s).1, some len, pos + 1, noteEvent events pos (dstep b s).2.event⟩
    | none => bufLoop rest (pos + 1) (noteEvent events pos (dstep b s).2.event) (dstep b s).1

/-- A DEC_BUF returns `(frame, consumed, events)` (R122). -/
def returnBuf (r : BufRun) : State :=
  r.state.report (.buf r.frame r.consumed r.events) (r.state.frameContent r.frame)

/-- DEC_BUF (R121): the entry reset, then the loop. The entry reset clears the cursor too (90_conflicts.md C3, D8). -/
def execDecBuf (bytes : List Byte) (s : State) : Run :=
  .next (returnBuf (bufLoop bytes 0 [] (toIdle s)))

/-- DEC_READ (R123): one cell, nothing written. Beyond the buffer the command is refused, "no byte returned, no state
change", and it is over: it has no result, and the block takes the next command (60_exceptions.md R171; log entry 10). -/
def execDecRead (addr : Nat) (s : State) : Run :=
  if s.cfg.maxFrame ≤ addr then .next s
  else .next (s.report (.read (s.readDbuf addr)) [])

end Sys2Proof.Machine
end

