-- ==== Sys2Proof/Machine/Encoder.lean ====
section
/-! DEFINITION. The encoder: the three emit steps and the commands ENC_SIZE and ENC (42_encoder.md). It reads and writes
no decoder state (R149). -/

namespace Sys2Proof.Machine

/-- SRC_FEND (R142): `emit(0xDB); emit(0xDC)`. -/
def execSrcFend (s : State) : Run := andThen (emit fesc s) (emit tfend)

/-- SRC_FESC (R143): `emit(0xDB); emit(0xDD)`. -/
def execSrcFesc (s : State) : Run := andThen (emit fesc s) (emit tfesc)

/-- SRC_PLAIN (R144): `emit(v)`, for a source byte that is neither `0xC0` nor `0xDB`. -/
def execSrcPlain (v : Byte) (s : State) : Run :=
  if v = fend ∨ v = fesc then .refused .rowNotSelected else emit v s

/-- The emit step of one source byte, selected by value alone (30_encoding.md R76). -/
def emitStep (v : Byte) (s : State) : Run :=
  match classifySrc v with
  | .srcFend => execSrcFend s
  | .srcFesc => execSrcFesc s
  | .srcPlain w => execSrcPlain w s

/-- The loop of ENC over the source (R141). -/
def emitAll (src : List Byte) (s : State) : Run :=
  match src with
  | [] => .next s
  | v :: rest => andThen (emitStep v s) (emitAll rest)

/-- The size the source's formula gives (R140): 2, and 2 more for each byte that needs escaping, 1 for each other. -/
def encodedSize (src : List Byte) : Nat :=
  src.foldl (fun size v => if needsEscape v then size + 2 else size + 1) 2

/-- ENC_SIZE (R140). -/
def execEncSize (src : List Byte) (s : State) : Run := .next (s.report (.size (encodedSize src)) [])

/-- ENC returns `(j, NONE)` and is over; `dst[0 .. j)` is its output (R141). -/
def encReturn (s : State) : Run :=
  match s.enc with
  | none => .refused .rowNotSelected
  | some e => .next ({ s with enc := none }.report (.enc e.j .noEvent) (Memory.firstBytes s.dst e.j))

/-- ENC past its two tests (R141, R145): the opening FEND, the images, the closing FEND. -/
def encFrame (src : List Byte) (dstCap : Nat) (s : State) : Run :=
  andThen (andThen (andThen (emit fend { s with enc := some ⟨0, dstCap⟩ }) (emitAll src)) (emit fend)) encReturn

/-- ENC (R141): the empty source first (R146), then the capacity (R147), then the frame. -/
def execEnc (src : List Byte) (dstCap : Nat) (s : State) : Run :=
  if src.isEmpty then .next (s.report (.enc 0 .noEvent) [])
  else if dstCap < encodedSize src then .next (s.report (.enc 0 .encCapacity) [])
  else encFrame src dstCap s

end Sys2Proof.Machine
end

