-- ==== Sys2Proof/Machine/Reset.lean ====
section
/-! DEFINITION. The command RESET (70_reset_and_hazards.md R190). -/

namespace Sys2Proof.Machine

/-- RESET (R190): both flags and the cursor 0, every cell of the buffer unspecified again, "neither kept nor cleared":
no cell is listed and the free value is a fresh one (log entry 13). It raises no event and returns no result, and it
concerns neither the encoder nor the host's side. -/
def execReset (s : State) : Run := .next { toIdle s with dbuf := [], epoch := s.epoch + 1 }

end Sys2Proof.Machine
end

