-- ==== Sys2Proof/Machine/Dispatch.lean ====
section
/-! DEFINITION. The meaning of every instruction, one arm per constructor of `Instr`. -/

namespace Sys2Proof.Machine

def exec (i : Instr) (s : State) : Host.Outcome State Fault Refusal :=
  match i with
  | .openFrame => Sys2Proof.Machine.execOpen s
  | .noise v => Sys2Proof.Machine.execNoise v s
  | .escPrefix => Sys2Proof.Machine.execEscPrefix s
  | .closeFrame => Sys2Proof.Machine.execClose s
  | .restart => Sys2Proof.Machine.execRestart s
  | .data v => Sys2Proof.Machine.execData v s
  | .dataOvf v => Sys2Proof.Machine.execDataOvf v s
  | .escEnd => Sys2Proof.Machine.execEscEnd s
  | .escEsc => Sys2Proof.Machine.execEscEsc s
  | .escOvf x => Sys2Proof.Machine.execEscOvf x s
  | .badEsc v => Sys2Proof.Machine.execBadEsc v s
  | .srcFend => Sys2Proof.Machine.execSrcFend s
  | .srcFesc => Sys2Proof.Machine.execSrcFesc s
  | .srcPlain v => Sys2Proof.Machine.execSrcPlain v s
  | .decByte b => Sys2Proof.Machine.execDecByte b s
  | .decBuf bytes => Sys2Proof.Machine.execDecBuf bytes s
  | .decRead addr => Sys2Proof.Machine.execDecRead addr s
  | .encSize src => Sys2Proof.Machine.execEncSize src s
  | .enc src dstCap => Sys2Proof.Machine.execEnc src dstCap s
  | .reset => Sys2Proof.Machine.execReset s

end Sys2Proof.Machine
end

