-- ==== Sys2Proof/Machine/Step.lean ====
section
/-! DEFINITION. One step of the machine: the next command of the host, performed whole (00_scope.md R8, 20_memory.md
R45, R49). -/

namespace Sys2Proof.Machine

/-- The step. The block "acts only when given a command" (60_exceptions.md R181), so with none pending the state
survives unchanged (log entry 1). -/
def step (s : State) : Host.Outcome State Fault Refusal :=
  match s.pending with
  | [] => .next s
  | c :: rest => exec c.toInstr { s with pending := rest }

/-- The state with the byte `w`, a row of the opcode table of `nbits` bits, as the host's next DEC_BYTE, in the decoder
state in which `decodeTableWord` reads it and with nothing buffered (log entry 11). Other widths are no instruction's. -/
def State.withFetchWord (s : State) (nbits w : Nat) : State :=
  if nbits = 8 then
    { s with
      fsm := bareFsm (BitVec.ofNat 8 w)
      wcur := 0
      pending := .decByte (BitVec.ofNat 8 w) :: s.pending }
  else s

end Sys2Proof.Machine
end

