-- ==== Sys2Proof/Safety.lean ====
section
/-! DEFINITION. The terms the statements use: the invariants of 10_state.md R26, what a decode step leaves alone
(R36), and DEC_BYTE repeated over a list of bytes (41_decoder_commands.md R129). -/

namespace Sys2Proof.Machine

/-- The states the block can be in (R26), with the model's own forms: the memories canonical, the buffer within
`MAX_FRAME`, and an ENC in progress within its capacity. INV1 holds by the type of `fsm` (R24). -/
structure State.Inv (s : State) : Prop where
  /-- `MAX_FRAME >= 1` (R6). -/
  cfg_legal : s.cfg.Legal
  /-- INV3. -/
  wcur_le : s.wcur ≤ s.cfg.maxFrame
  /-- INV2. -/
  idle_wcur : s.fsm = .idle → s.wcur = 0
  /-- The buffer is canonical. -/
  dbuf_wf : s.dbuf.wf
  /-- No cell at or beyond `MAX_FRAME` was ever written (20_memory.md R44). -/
  dbuf_bound : ∀ c ∈ s.dbuf, c.1 < s.cfg.maxFrame
  /-- Of INV4: every cell below the cursor has been written since RESET. -/
  dbuf_written : ∀ k < s.wcur, (Memory.read? s.dbuf k).isSome
  /-- The host's DST is canonical. -/
  dst_wf : s.dst.wf
  /-- An ENC in progress is within its capacity (R44). -/
  enc_bound : ∀ e ∈ s.enc, e.j ≤ e.cap

/-- The invariant between commands: no ENC is in progress (10_state.md R33). -/
structure State.BetweenCommands (s : State) : Prop where
  inv : s.Inv
  no_enc : s.enc = none

/-- Everything but the decoder's state and the results is as before (10_state.md R36, 20_memory.md R56). -/
structure SameOutsideDecoder (s t : State) : Prop where
  cfg : t.cfg = s.cfg
  epoch : t.epoch = s.epoch
  dst : t.dst = s.dst
  enc : t.enc = s.enc
  pending : t.pending = s.pending

/-- The decoder's state is as before, the buffer read cell by cell (10_state.md R20). -/
structure SameDecoder (s t : State) : Prop where
  fsm : t.fsm = s.fsm
  wcur : t.wcur = s.wcur
  dbuf : ∀ a, t.readDbuf a = s.readDbuf a

/-- What one decode step does, as the listing of 40_decoder_steps.md R106 has it: the next state and cursor, the byte
stored at the old cursor if any, and the result. -/
structure StepEffect where
  fsm : Fsm
  wcur : Nat
  stored : Option Byte
  frame : Option Nat
  event : Event

/-- The listing of R106, transcribed line by line, apart from the model's own arms. -/
def listing (s : State) (b : Byte) : StepEffect :=
  match s.fsm with
  | .idle =>
    if b = 0xC0#8 then ⟨.inFrame, 0, none, none, .noEvent⟩ else ⟨.idle, s.wcur, none, none, .noEvent⟩
  | .inFrame =>
    if b = 0xDB#8 then ⟨.inFrameEscape, s.wcur, none, none, .noEvent⟩
    else if b = 0xC0#8 then
      if s.wcur > 0 then ⟨.idle, 0, none, some s.wcur, .noEvent⟩ else ⟨.inFrame, 0, none, none, .noEvent⟩
    else if s.wcur < s.cfg.maxFrame then ⟨.inFrame, s.wcur + 1, some b, none, .noEvent⟩
    else ⟨.idle, 0, none, none, .frameTooLarge⟩
  | .inFrameEscape =>
    if b = 0xDC#8 ∨ b = 0xDD#8 then
      let lit : Byte := if b = 0xDC#8 then 0xC0#8 else 0xDB#8
      if s.wcur < s.cfg.maxFrame then ⟨.inFrame, s.wcur + 1, some lit, none, .noEvent⟩
      else ⟨.idle, 0, none, none, .frameTooLarge⟩
    else ⟨.idle, 0, none, none, .badEscape⟩

/-- The frame a result reports, if any (R11, R122). -/
def Result.frame? : Result → Option Nat
  | .step frame _ => frame
  | .buf frame _ _ => frame
  | .read _ => none
  | .size _ => none
  | .enc _ _ => none

/-- How many bytes of a source need escaping, the `k` of 42_encoder.md. -/
def escapeCount (src : List Byte) : Nat := src.countP (fun v => v == 0xC0#8 || v == 0xDB#8)

/-- DEC_BYTE over a list, byte after byte, until one returns a frame or the list ends (R129): the state, the frame, the
number of bytes fed. None where a DEC_BYTE does not answer a next state or returns no result. -/
def feedBytes (bytes : List Byte) (fed : Nat) (s : State) : Option (State × Option Nat × Nat) :=
  match bytes with
  | [] => some (s, none, fed)
  | b :: rest =>
    match exec (.decByte b) s with
    | .next t =>
      match t.results.getLast? with
      | some ⟨.step (some len) _, _⟩ => some (t, some len, fed + 1)
      | some ⟨.step none _, _⟩ => feedBytes rest (fed + 1) t
      | _ => none
    | .fault _ => none
    | .refused _ => none

/-- The events among a list of observed DEC_BYTE results, with their positions counted from `pos` (R122). -/
def eventsOf (results : List Observed) (pos : Nat) : List (Nat × Event) :=
  match results with
  | [] => []
  | ⟨.step _ .noEvent, _⟩ :: rest => eventsOf rest (pos + 1)
  | ⟨.step _ e, _⟩ :: rest => (pos, e) :: eventsOf rest (pos + 1)
  | _ :: rest => eventsOf rest (pos + 1)

/-- Every `0xDB` of a wire string is the first byte of an escape pair (42_encoder.md R151). -/
def EscapesPaired (w : List Byte) : Prop :=
  ∀ k, w[k]? = some 0xDB#8 → w[k + 1]? = some 0xDC#8 ∨ w[k + 1]? = some 0xDD#8

end Sys2Proof.Machine
end

