-- ==== Sys2Proof/Certificates/Slice0/Obligations.lean ====
section
/-! DEFINITION. The statements for the provers, from the numbered rules of the spec. `MAX_FRAME` is `s.cfg.maxFrame` and
every statement holds for every value of it, unless a hypothesis bounds it. What a command returns (R11, R74, R207) is
the entry it appends to `results` (the model's form, log entry 2). -/

open Sys2Proof Sys2Proof.Machine

/-! ## The arms of the decode step -/

/-- R91. -/
def Obligations.OpenStartsAFrame : Prop :=
  ∀ s : State, s.fsm = .idle →
    exec .openFrame s =
      .next { s with fsm := .inFrame, wcur := 0, results := s.results ++ [⟨.step none .noEvent, []⟩] }

/-- R92. -/
def Obligations.NoiseChangesNothing : Prop :=
  ∀ (s : State) (v : Byte), s.fsm = .idle → v ≠ 0xC0#8 →
    exec (.noise v) s = .next { s with results := s.results ++ [⟨.step none .noEvent, []⟩] }

/-- R93. The arm does not test the cursor. -/
def Obligations.EscPrefixArmsTheEscape : Prop :=
  ∀ s : State, s.fsm = .inFrame →
    exec .escPrefix s =
      .next { s with fsm := .inFrameEscape, results := s.results ++ [⟨.step none .noEvent, []⟩] }

/-- R94. What the frame makes readable is `dbuf[0 .. len)` (R25). -/
def Obligations.CloseReportsTheFrame : Prop :=
  ∀ s : State, s.fsm = .inFrame → 0 < s.wcur →
    exec .closeFrame s =
      .next { s with
        fsm := .idle
        wcur := 0
        results := s.results ++ [⟨.step (some s.wcur) .noEvent, (List.range s.wcur).map s.readDbuf⟩] }

/-- R95. -/
def Obligations.RestartReportsNothing : Prop :=
  ∀ s : State, s.fsm = .inFrame → s.wcur = 0 →
    exec .restart s = .next { s with results := s.results ++ [⟨.step none .noEvent, []⟩] }

/-- R96, with the append of R104. -/
def Obligations.DataAppendsTheByte : Prop :=
  ∀ (s : State) (v : Byte), s.fsm = .inFrame → v ≠ 0xC0#8 → v ≠ 0xDB#8 → s.wcur < s.cfg.maxFrame →
    ∃ d : Memory,
      exec (.data v) s =
        .next { s with dbuf := d, wcur := s.wcur + 1, results := s.results ++ [⟨.step none .noEvent, []⟩] } ∧
      Memory.read? d s.wcur = some v ∧ ∀ a, a ≠ s.wcur → Memory.read? d a = Memory.read? s.dbuf a

/-- R97. -/
def Obligations.DataOvfAbortsTheFrame : Prop :=
  ∀ (s : State) (v : Byte), s.fsm = .inFrame → v ≠ 0xC0#8 → v ≠ 0xDB#8 → s.wcur = s.cfg.maxFrame →
    exec (.dataOvf v) s =
      .next { s with fsm := .idle, wcur := 0, results := s.results ++ [⟨.step none .frameTooLarge, []⟩] }

/-- R98, with the append of R104. -/
def Obligations.EscEndAppendsFend : Prop :=
  ∀ s : State, s.fsm = .inFrameEscape → s.wcur < s.cfg.maxFrame →
    ∃ d : Memory,
      exec .escEnd s =
        .next { s with
          fsm := .inFrame
          dbuf := d
          wcur := s.wcur + 1
          results := s.results ++ [⟨.step none .noEvent, []⟩] } ∧
      Memory.read? d s.wcur = some 0xC0#8 ∧ ∀ a, a ≠ s.wcur → Memory.read? d a = Memory.read? s.dbuf a

/-- R99, with the append of R104. -/
def Obligations.EscEscAppendsFesc : Prop :=
  ∀ s : State, s.fsm = .inFrameEscape → s.wcur < s.cfg.maxFrame →
    ∃ d : Memory,
      exec .escEsc s =
        .next { s with
          fsm := .inFrame
          dbuf := d
          wcur := s.wcur + 1
          results := s.results ++ [⟨.step none .noEvent, []⟩] } ∧
      Memory.read? d s.wcur = some 0xDB#8 ∧ ∀ a, a ≠ s.wcur → Memory.read? d a = Memory.read? s.dbuf a

/-- R100, for both values of the unused bit. -/
def Obligations.EscOvfAbortsTheFrame : Prop :=
  ∀ (s : State) (x : BitVec 1), s.fsm = .inFrameEscape → s.wcur = s.cfg.maxFrame →
    exec (.escOvf x) s =
      .next { s with fsm := .idle, wcur := 0, results := s.results ++ [⟨.step none .frameTooLarge, []⟩] }

/-- R101, at any cursor. -/
def Obligations.BadEscAbortsTheFrame : Prop :=
  ∀ (s : State) (v : Byte), s.fsm = .inFrameEscape → v ≠ 0xDC#8 → v ≠ 0xDD#8 →
    exec (.badEsc v) s =
      .next { s with fsm := .idle, wcur := 0, results := s.results ++ [⟨.step none .badEscape, []⟩] }

/-- The model's own choice (log entry 8): a row of the decoder that no byte selects in the present state is refused. -/
def Obligations.UnselectedDecoderRowIsRefused : Prop :=
  ∀ (s : State) (i : Instr), i.isCommand = false → i ≠ .srcFend → i ≠ .srcFesc → (∀ v, i ≠ .srcPlain v) →
    (∀ b, decodeByte s.ctx b ≠ i) → exec i s = .refused .rowNotSelected

/-! ## Decoding -/

/-- R66, R70, R90: decoding what a well-formed instruction is encoded as, in a context its row applies in, gives it back,
with every operand; and every instruction with a wire form applies somewhere. -/
def Obligations.DecodeInvertsEncode : Prop :=
  (∀ (c : Ctx) (i : Instr) (w rest : List Byte), i.wellFormed = true → i.appliesIn c = true → encode i = some w →
    decode c (w ++ rest) = .instr i rest) ∧
  ∀ i : Instr, i.isCommand = false → (∃ w, encode i = some w) ∧ ∃ c, i.appliesIn c = true

/-- R70, R66: every byte value in every context is a well-formed instruction whose row applies there and whose encoding
is that byte. -/
def Obligations.EncodeInvertsDecode : Prop :=
  ∀ (c : Ctx) (b : Byte) (rest : List Byte), (∀ fsm wcur maxFrame, c = .dec fsm wcur maxFrame → wcur ≤ maxFrame) →
    ∃ i, decode c (b :: rest) = .instr i rest ∧ encode i = some [b] ∧ i.wellFormed = true ∧ i.appliesIn c = true

/-- R75: "take the first row in priority order whose match holds and whose `cond` holds" selects what the decoder
reads, for every byte and context. -/
def Obligations.TableSelectsTheDecodedRow : Prop :=
  ∀ (c : Ctx) (b : Byte), (∀ fsm wcur maxFrame, c = .dec fsm wcur maxFrame → wcur ≤ maxFrame) →
    decodeByTable c b = some (decodeByte c b)

/-- R66, R76: bytes written out from the tables, in each context. -/
def Obligations.SampleBytesDecode : Prop :=
  decodeByte (.dec .idle 0 255) 0b11000000#8 = .openFrame ∧
  decodeByte (.dec .idle 0 255) 0b11011011#8 = .noise 0xDB#8 ∧
  decodeByte (.dec .inFrame 255 255) 0b11011011#8 = .escPrefix ∧
  decodeByte (.dec .inFrame 1 255) 0b11000000#8 = .closeFrame ∧
  decodeByte (.dec .inFrame 0 255) 0b11000000#8 = .restart ∧
  decodeByte (.dec .inFrame 254 255) 0b11011100#8 = .data 0xDC#8 ∧
  decodeByte (.dec .inFrame 255 255) 0b11011100#8 = .dataOvf 0xDC#8 ∧
  decodeByte (.dec .inFrameEscape 254 255) 0b11011100#8 = .escEnd ∧
  decodeByte (.dec .inFrameEscape 254 255) 0b11011101#8 = .escEsc ∧
  decodeByte (.dec .inFrameEscape 255 255) 0b11011101#8 = .escOvf 1#1 ∧
  decodeByte (.dec .inFrameEscape 255 255) 0b11011110#8 = .badEsc 0xDE#8 ∧
  decodeByte .enc 0b11000000#8 = .srcFend ∧
  decodeByte .enc 0b11011011#8 = .srcFesc ∧
  decodeByte .enc 0b11011101#8 = .srcPlain 0xDD#8

/-! ## The step -/

/-- R8, R45, R49, R120: the step performs the host's next command whole; a DEC_BYTE is the instruction its byte decodes
to. With no command pending the step changes nothing (the model's choice, log entry 1; R181). -/
def Obligations.StepRunsTheDecodedInstruction : Prop :=
  (∀ (s : State) (c : Command) (rest : List Command), s.pending = c :: rest →
    step s = exec c.toInstr { s with pending := rest }) ∧
  (∀ (s : State) (b : Byte) (rest : List Command) (i : Instr), s.pending = .decByte b :: rest →
    decode s.ctx [b] = .instr i [] → step s = exec i { s with pending := rest }) ∧
  ∀ s : State, s.pending = [] → step s = .next s

/-- The model's own interface (log entry 11): a row's bits placed by withFetchWord are run by the very next step, as the
instruction decodeTableWord reads. -/
def Obligations.FetchedWordRunsNext : Prop :=
  ∀ (s : State) (w : Nat) (i : Instr), s.cfg.Legal → decodeTableWord 8 w = some i →
    step (s.withFetchWord 8 w) = exec i { s with fsm := bareFsm (BitVec.ofNat 8 w), wcur := 0 } ∧
    ∃ t, step (s.withFetchWord 8 w) = .next t

/-- R171, R45: whatever the state, every command, a refused DEC_READ among them, completes in one step and consumes
itself alone, so the commands after it run. -/
def Obligations.EveryCommandCompletes : Prop :=
  ∀ (s : State) (c : Command) (rest : List Command), s.pending = c :: rest → ∃ t, step s = .next t ∧ t.pending = rest

/-! ## DEC_BYTE -/

/-- R120, R90: DEC_BYTE does what the selected arm does, in every state and for every byte. -/
def Obligations.DecByteRunsTheSelectedArm : Prop :=
  ∀ (s : State) (b : Byte), exec (.decByte b) s = exec (decodeByte s.ctx b) s

/-- R106: the whole decode step as the listing has it, with everything it leaves alone. -/
def Obligations.DecByteFollowsTheListing : Prop :=
  ∀ (s : State) (b : Byte), ∃ d : Memory,
    exec (.decByte b) s =
      .next { s with
        fsm := (listing s b).fsm
        wcur := (listing s b).wcur
        dbuf := d
        results := s.results ++
          [⟨.step (listing s b).frame (listing s b).event,
            match (listing s b).frame with
            | some len => (List.range len).map s.readDbuf
            | none => []⟩] } ∧
    ∀ a, Memory.read? d a =
      if a = s.wcur ∧ (listing s b).stored.isSome then (listing s b).stored else Memory.read? s.dbuf a

/-- R103, R22: the edges of the transition graph that are absent, and what each present edge needs. -/
def Obligations.TransitionGraphOfTheDecoder : Prop :=
  ∀ (s t : State) (b : Byte), exec (.decByte b) s = .next t →
    (s.fsm = .idle → (t.fsm = .inFrame ↔ b = 0xC0#8) ∧ t.fsm ≠ .inFrameEscape) ∧
    (s.fsm = .inFrame → (t.fsm = .inFrameEscape ↔ b = 0xDB#8) ∧
      (t.fsm = .idle ↔ (b = 0xC0#8 ∧ 0 < s.wcur) ∨ (b ≠ 0xC0#8 ∧ b ≠ 0xDB#8 ∧ s.cfg.maxFrame ≤ s.wcur))) ∧
    (s.fsm = .inFrameEscape → t.inEscape = false ∧
      (t.fsm = .inFrame ↔ (b = 0xDC#8 ∨ b = 0xDD#8) ∧ s.wcur < s.cfg.maxFrame))

/-- R161, R162, R166, R169: exactly when a decode step raises which event, and that the step is then the abort and
nothing else. -/
def Obligations.EventsAndTheAbort : Prop :=
  ∀ (s : State) (b : Byte), s.wcur ≤ s.cfg.maxFrame →
    ∃ t frame event content, exec (.decByte b) s = .next t ∧
      t.results = s.results ++ [⟨.step frame event, content⟩] ∧
      (event = .badEscape ↔ s.fsm = .inFrameEscape ∧ b ≠ 0xDC#8 ∧ b ≠ 0xDD#8) ∧
      (event = .frameTooLarge ↔ s.wcur = s.cfg.maxFrame ∧
        ((s.fsm = .inFrame ∧ b ≠ 0xC0#8 ∧ b ≠ 0xDB#8) ∨ (s.fsm = .inFrameEscape ∧ (b = 0xDC#8 ∨ b = 0xDD#8)))) ∧
      event ≠ .encCapacity ∧
      (event ≠ .noEvent → frame = none ∧ t.inFrame = false ∧ t.inEscape = false ∧
        t = { s with fsm := .idle, wcur := 0, results := t.results })

/-! ## DEC_BUF and DEC_READ -/

/-- R129, R121, R122: DEC_BUF is the entry reset, then DEC_BYTE byte after byte up to the first frame; its events are
those the DEC_BYTE results show, at their positions. -/
def Obligations.DecBufIsRepeatedDecByte : Prop :=
  ∀ (s : State) (bytes : List Byte), ∃ u frame consumed,
    feedBytes bytes 0 { s with fsm := .idle, wcur := 0 } = some (u, frame, consumed) ∧
    exec (.decBuf bytes) s =
      .next { u with
        results := s.results ++
          [⟨.buf frame consumed (eventsOf (u.results.drop s.results.length) 0),
            match frame with
            | some len => (List.range len).map u.readDbuf
            | none => []⟩] }

/-- R122: the shape of DEC_BUF's result, for every list and state. -/
def Obligations.DecBufResultTriple : Prop :=
  ∀ (s : State) (bytes : List Byte), ∃ t frame consumed events content,
    exec (.decBuf bytes) s = .next t ∧
    t.results = s.results ++ [⟨.buf frame consumed events, content⟩] ∧
    consumed ≤ bytes.length ∧
    (frame = none → consumed = bytes.length) ∧
    (∀ len, frame = some len → 0 < consumed ∧ bytes[consumed - 1]? = some 0xC0#8) ∧
    events.Pairwise (fun x y => x.1 < y.1) ∧
    ∀ e ∈ events, e.1 < consumed ∧ (e.2 = .badEscape ∨ e.2 = .frameTooLarge)

/-- R46: bytes after the closing FEND are not read: replacing them by any others changes nothing. -/
def Obligations.DecBufIgnoresUnprocessedBytes : Prop :=
  ∀ (s t : State) (bytes other : List Byte) (len consumed : Nat) (events : List (Nat × Event)) (content : List Byte),
    exec (.decBuf bytes) s = .next t →
    t.results = s.results ++ [⟨.buf (some len) consumed events, content⟩] →
    exec (.decBuf (bytes.take consumed ++ other)) s = .next t

/-- R92, R127, R121: a list without FEND, the empty one among them, is discarded whatever the state was: the decoder is
Idle after it, no cell is written, nothing is raised. -/
def Obligations.DecBufOfNoiseOnly : Prop :=
  ∀ (s : State) (bytes : List Byte), 0xC0#8 ∉ bytes →
    exec (.decBuf bytes) s =
      .next { s with
        fsm := .idle
        wcur := 0
        results := s.results ++ [⟨.buf none bytes.length [], []⟩] }

/-- R69, R95, R91: any number of consecutive FENDs opens one frame and reports none. -/
def Obligations.DelimitersAloneReportNoFrame : Prop :=
  ∀ (s : State) (n : Nat),
    exec (.decBuf (List.replicate (n + 1) 0xC0#8)) s =
      .next { s with
        fsm := .inFrame
        wcur := 0
        results := s.results ++ [⟨.buf none (n + 1) [], []⟩] }

/-- R123: a read within the buffer returns the cell and writes nothing; a read beyond it is refused: no byte returned, no
state change. That a refusal is an absence of any result is the model's reading (log entry 10). -/
def Obligations.DecReadReturnsTheCell : Prop :=
  ∀ (s : State) (addr : Nat),
    (addr < s.cfg.maxFrame →
      exec (.decRead addr) s = .next { s with results := s.results ++ [⟨.read (s.readDbuf addr), []⟩] }) ∧
    (s.cfg.maxFrame ≤ addr → exec (.decRead addr) s = .next s)

/-- R94, R128, R11: a frame reported by any instruction has a length of 1 to MAX_FRAME, comes with no step event, shows
that many bytes, and leaves the decoder Idle with the cursor at the start. -/
def Obligations.ReportedFramesAreWhole : Prop :=
  ∀ (s t : State) (i : Instr) (o : Observed) (len : Nat), s.Inv → exec i s = .next t →
    o ∈ t.results.drop s.results.length → o.result.frame? = some len →
    1 ≤ len ∧ len ≤ s.cfg.maxFrame ∧ (∀ e, o.result = .step (some len) e → e = .noEvent) ∧
    o.content = (List.range len).map t.readDbuf ∧ t.fsm = .idle ∧ t.wcur = 0

/-- R26 INV4, R41, R98, R99, R96: the images of a payload that fits, fed into an open and empty frame, leave it in the
buffer in arrival order, and touch nothing else but the results. -/
def Obligations.PayloadAccumulatesInOrder : Prop :=
  ∀ (s : State) (p : List Byte), s.fsm = .inFrame → s.wcur = 0 → p.length ≤ s.cfg.maxFrame →
    ∃ t, feedBytes (p.flatMap image) 0 s = some (t, none, (p.flatMap image).length) ∧
      t.fsm = .inFrame ∧ t.wcur = p.length ∧
      (∀ k, (h : k < p.length) → t.readDbuf k = p[k]) ∧
      (∀ a, p.length ≤ a → t.readDbuf a = s.readDbuf a) ∧
      SameOutsideDecoder s t

/-! ## The encoder -/

/-- R142. -/
def Obligations.SrcFendEmitsItsPair : Prop :=
  ∀ (s : State) (e : EncRun), s.enc = some e → e.j + 2 ≤ e.cap →
    ∃ d : Memory, exec .srcFend s = .next { s with dst := d, enc := some ⟨e.j + 2, e.cap⟩ } ∧
      Memory.read? d e.j = some 0xDB#8 ∧ Memory.read? d (e.j + 1) = some 0xDC#8 ∧
      ∀ a, a ≠ e.j → a ≠ e.j + 1 → Memory.read? d a = Memory.read? s.dst a

/-- R143. -/
def Obligations.SrcFescEmitsItsPair : Prop :=
  ∀ (s : State) (e : EncRun), s.enc = some e → e.j + 2 ≤ e.cap →
    ∃ d : Memory, exec .srcFesc s = .next { s with dst := d, enc := some ⟨e.j + 2, e.cap⟩ } ∧
      Memory.read? d e.j = some 0xDB#8 ∧ Memory.read? d (e.j + 1) = some 0xDD#8 ∧
      ∀ a, a ≠ e.j → a ≠ e.j + 1 → Memory.read? d a = Memory.read? s.dst a

/-- R144. -/
def Obligations.SrcPlainEmitsTheByte : Prop :=
  ∀ (s : State) (e : EncRun) (v : Byte), s.enc = some e → e.j < e.cap → v ≠ 0xC0#8 → v ≠ 0xDB#8 →
    ∃ d : Memory, exec (.srcPlain v) s = .next { s with dst := d, enc := some ⟨e.j + 1, e.cap⟩ } ∧
      Memory.read? d e.j = some v ∧ ∀ a, a ≠ e.j → Memory.read? d a = Memory.read? s.dst a

/-- The model's own choices (log entries 8 and 9): an emit step outside an ENC is refused, and one that would write at or
beyond the capacity faults, whichever of its bytes would. -/
def Obligations.EmitStepsStopOutsideTheirRange : Prop :=
  (∀ (s : State) (v : Byte), s.enc = none → exec .srcFend s = .refused .rowNotSelected ∧
    exec .srcFesc s = .refused .rowNotSelected ∧ exec (.srcPlain v) s = .refused .rowNotSelected) ∧
  (∀ (s : State) (e : EncRun), s.enc = some e → e.cap < e.j + 2 →
    exec .srcFend s = .fault .dstBound ∧ exec .srcFesc s = .fault .dstBound) ∧
  ∀ (s : State) (e : EncRun) (v : Byte), s.enc = some e → e.cap ≤ e.j → v ≠ 0xC0#8 → v ≠ 0xDB#8 →
    exec (.srcPlain v) s = .fault .dstBound

/-- R140: `n + k + 2`, exactly, for every source. -/
def Obligations.EncSizeFormula : Prop :=
  ∀ (s : State) (src : List Byte),
    exec (.encSize src) s =
      .next { s with results := s.results ++ [⟨.size (src.length + escapeCount src + 2), []⟩] }

/-- R146: the empty source, at every capacity. -/
def Obligations.EncOfNothingWritesNothing : Prop :=
  ∀ (s : State) (dstCap : Nat),
    exec (.enc [] dstCap) s = .next { s with results := s.results ++ [⟨.enc 0 .noEvent, []⟩] }

/-- R147, R163: one byte of capacity too few and nothing is written. -/
def Obligations.EncCapacityIsCheckedFirst : Prop :=
  ∀ (s : State) (src : List Byte) (dstCap : Nat), src ≠ [] → dstCap < src.length + escapeCount src + 2 →
    exec (.enc src dstCap) s = .next { s with results := s.results ++ [⟨.enc 0 .encCapacity, []⟩] }

/-- R141, R145, R148, R153: with the capacity there, ENC writes FEND, the images in order, FEND, exactly ENC_SIZE bytes
from index 0 of DST, leaves the rest of DST, and touches no decoder state. -/
def Obligations.EncWritesTheFrame : Prop :=
  ∀ (s : State) (src : List Byte) (dstCap : Nat), src ≠ [] → src.length + escapeCount src + 2 ≤ dstCap →
    ∃ (d : Memory) (out : List Byte),
      out = 0xC0#8 :: (src.flatMap (fun v =>
        if v = 0xC0#8 then [0xDB#8, 0xDC#8] else if v = 0xDB#8 then [0xDB#8, 0xDD#8] else [v]) ++ [0xC0#8]) ∧
      out.length = src.length + escapeCount src + 2 ∧
      exec (.enc src dstCap) s =
        .next { s with dst := d, enc := none, results := s.results ++ [⟨.enc out.length .noEvent, out⟩] } ∧
      (∀ k, (h : k < out.length) → Memory.read? d k = some out[k]) ∧
      ∀ a, out.length ≤ a → Memory.read? d a = Memory.read? s.dst a

/-- R151: the shape of what ENC writes. -/
def Obligations.EncOutputShape : Prop :=
  ∀ (s : State) (src : List Byte) (dstCap : Nat), src ≠ [] → src.length + escapeCount src + 2 ≤ dstCap →
    ∃ t out, exec (.enc src dstCap) s = .next t ∧ t.results = s.results ++ [⟨.enc out.length .noEvent, out⟩] ∧
      (∀ k, (h : k < out.length) → (out[k] = 0xC0#8 ↔ k = 0 ∨ k + 1 = out.length)) ∧
      EscapesPaired out ∧
      ∃ items : List (List Byte), items.length = src.length ∧ out = 0xC0#8 :: (items.flatten ++ [0xC0#8]) ∧
        ∀ item ∈ items, item = [0xDB#8, 0xDC#8] ∨ item = [0xDB#8, 0xDD#8] ∨
          ∃ v, item = [v] ∧ v ≠ 0xC0#8 ∧ v ≠ 0xDB#8

/-- R149, R33, R56, R177: ENC_SIZE and ENC leave the decoder as it was, and what they return depends on their arguments
alone. DEC_READ too leaves the decoder as it was. -/
def Obligations.EncoderIsPure : Prop :=
  (∀ (s t : State) (i : Instr), (∃ src, i = .encSize src) ∨ (∃ src dstCap, i = .enc src dstCap) ∨
      (∃ addr, i = .decRead addr) → exec i s = .next t → SameDecoder s t ∧ t.cfg = s.cfg ∧ t.epoch = s.epoch) ∧
  ∀ (s s' t t' : State) (i : Instr), (∃ src, i = .encSize src) ∨ (∃ src dstCap, i = .enc src dstCap) →
    exec i s = .next t → exec i s' = .next t' →
    ∃ o, t.results = s.results ++ [o] ∧ t'.results = s'.results ++ [o]

/-- R56: no decoder command and no RESET depends on DST or changes it. -/
def Obligations.DecoderIgnoresTheDestination : Prop :=
  ∀ (s t : State) (i : Instr) (d : Memory),
    (∃ b, i = .decByte b) ∨ (∃ bytes, i = .decBuf bytes) ∨ (∃ addr, i = .decRead addr) ∨ i = .reset →
    exec i s = .next t → t.dst = s.dst ∧ exec i { s with dst := d } = .next { t with dst := d }

/-! ## Whole-machine rules -/

/-- R6, R192, R8: no instruction changes MAX_FRAME, none touches the host's command stream, and each returns at most one
result, after the earlier ones. -/
def Obligations.ConfigurationIsFixed : Prop :=
  ∀ (s t : State) (i : Instr), exec i s = .next t →
    t.cfg = s.cfg ∧ t.pending = s.pending ∧
    ∃ more, t.results = s.results ++ more ∧ more.length ≤ 1

/-- R44: no instruction writes the decode buffer at or beyond MAX_FRAME, and ENC never writes DST at or beyond its
capacity. (RESET makes every cell unspecified, R190, and is left out of the first part.) -/
def Obligations.NoStoreOutOfBounds : Prop :=
  (∀ (s t : State) (i : Instr) (a : Nat), i ≠ .reset → exec i s = .next t → s.cfg.maxFrame ≤ a →
    t.readDbuf a = s.readDbuf a) ∧
  ∀ (s t : State) (src : List Byte) (dstCap a : Nat), exec (.enc src dstCap) s = .next t → dstCap ≤ a →
    Memory.read? t.dst a = Memory.read? s.dst a

/-- R34, last sentences: no result of a feed command depends on the unspecified bytes, in any legal state: with another
draw of them (`epoch` selects the draw, log entry 5) the command does the same. -/
def Obligations.UnspecifiedBytesReachNoFrame : Prop :=
  ∀ (s t : State) (i : Instr) (n : Nat), s.Inv → (∃ b, i = .decByte b) ∨ (∃ bytes, i = .decBuf bytes) →
    exec i s = .next t → exec i { s with epoch := n } = .next { t with epoch := n }

/-- R190: RESET at any time gives the between-frames state. That every cell reads as the free value of a new draw is the
model's form of `unspecified` (log entries 4, 5, 13). -/
def Obligations.ResetReturnsToBetweenFrames : Prop :=
  ∀ s : State, ∃ t, exec .reset s = .next t ∧
    t.inFrame = false ∧ t.inEscape = false ∧ t.fsm = .idle ∧ t.wcur = 0 ∧
    (∀ a, t.readDbuf a = Config.resetByte (s.epoch + 1) a) ∧
    t.results = s.results ∧ t.cfg = s.cfg ∧ t.dst = s.dst ∧ t.enc = s.enc ∧ t.pending = s.pending

/-- R34: the state right after reset, for every configuration, and that `State.reset` is the reference's, 255 (R6, D3).
That the cells read as free values is the model's form of `unspecified` (log entries 4, 5). -/
def Obligations.ResetStateIsBetweenFrames : Prop :=
  (∀ c : Config, (State.resetWith c).inFrame = false ∧ (State.resetWith c).inEscape = false ∧
    (State.resetWith c).fsm = .idle ∧ (State.resetWith c).wcur = 0 ∧ (State.resetWith c).cfg = c ∧
    ∀ a, (State.resetWith c).readDbuf a = Config.resetByte 0 a) ∧
  State.reset = State.resetWith ⟨255⟩

/-! ## Invariants -/

/-- R26 at reset, for every legal configuration. -/
def Obligations.ResetMeetsTheInvariant : Prop :=
  (∀ c : Config, c.Legal → (State.resetWith c).BetweenCommands) ∧ State.reset.BetweenCommands

/-- R26, R102: every instruction keeps the invariants. -/
def Obligations.EveryInstructionKeepsTheInvariant : Prop :=
  ∀ (s t : State) (i : Instr), s.Inv → exec i s = .next t → t.Inv

/-- R26, R33: every step keeps the invariants, and leaves no ENC in progress. -/
def Obligations.EveryStepKeepsTheInvariant : Prop :=
  ∀ s t : State, s.BetweenCommands → step s = .next t → t.BetweenCommands

/-! ## Encoder and decoder together -/

/-- R131, R105, R126: what ENC wrote for a source that fits the decoder, fed to a decoder that is Idle, or in a frame
with nothing buffered (after an abort and the damaged frame's own FEND), by DEC_BYTE or by one DEC_BUF from any state,
reports exactly that source, at the last byte, with no event, and ends between frames. -/
def Obligations.EncodedFrameDecodesToItsSource : Prop :=
  ∀ (s : State) (src : List Byte) (dstCap : Nat), src ≠ [] → src.length + escapeCount src + 2 ≤ dstCap →
    ∃ t out, exec (.enc src dstCap) s = .next t ∧ t.results = s.results ++ [⟨.enc out.length .noEvent, out⟩] ∧
      ∀ r : State, src.length ≤ r.cfg.maxFrame →
        (r.fsm = .idle ∨ (r.fsm = .inFrame ∧ r.wcur = 0) →
          ∃ u, feedBytes out 0 r = some (u, some src.length, out.length) ∧
            eventsOf (u.results.drop r.results.length) 0 = [] ∧ u.fsm = .idle ∧ u.wcur = 0 ∧
            ∀ k, (h : k < src.length) → u.readDbuf k = src[k]) ∧
        ∃ u, exec (.decBuf out) r = .next u ∧
          u.results = r.results ++ [⟨.buf (some src.length) out.length [], src⟩] ∧ u.fsm = .idle ∧ u.wcur = 0 ∧
          ∀ k, (h : k < src.length) → u.readDbuf k = src[k]

/-- R131, last sentence, with R97, R100, R105: the wire form of a source longer than MAX_FRAME raises FRAME_TOO_LARGE
once, at the last byte of the image of `src[MAX_FRAME]`, reports no frame, and its closing FEND opens one. -/
def Obligations.OversizeFrameIsAbortedOnce : Prop :=
  ∀ (s : State) (src : List Byte), s.cfg.maxFrame < src.length →
    ∃ t, exec (.decBuf (wireFrame src)) s = .next t ∧
      t.results = s.results ++
        [⟨.buf none (wireFrame src).length
            [(((src.take (s.cfg.maxFrame + 1)).flatMap image).length, .frameTooLarge)], []⟩] ∧
      t.fsm = .inFrame ∧ t.wcur = 0

/-- R201, R94 (a), 90_conflicts.md C1: a closing FEND does not open the next frame: with one FEND between two frames the
second is noise, and the FEND after it opens a frame. -/
def Obligations.SharedDelimiterLosesTheSecondFrame : Prop :=
  ∀ (s : State) (p q : List Byte), p ≠ [] → p.length ≤ s.cfg.maxFrame →
    ∃ t u, exec (.decBuf (wireFrame p ++ q.flatMap image ++ [0xC0#8])) s = .next t ∧
      t.results = s.results ++ [⟨.buf (some p.length) (wireFrame p).length [], p⟩] ∧
      t.fsm = .idle ∧ t.wcur = 0 ∧
      exec (.decBuf (q.flatMap image ++ [0xC0#8])) t = .next u ∧
      u = { t with
        fsm := .inFrame
        results := t.results ++ [⟨.buf none ((q.flatMap image).length + 1) [], []⟩] }
end

