-- ==== Sys2Proof/Laws/Bytes.lean ====
section
/-! SUPPORT. "All four are distinct" (30_encoding.md R60). -/

namespace Sys2Proof

@[simp] theorem fend_ne_fesc : fend ≠ fesc := by decide
@[simp] theorem fend_ne_tfend : fend ≠ tfend := by decide
@[simp] theorem fend_ne_tfesc : fend ≠ tfesc := by decide
@[simp] theorem fesc_ne_fend : fesc ≠ fend := by decide
@[simp] theorem fesc_ne_tfend : fesc ≠ tfend := by decide
@[simp] theorem fesc_ne_tfesc : fesc ≠ tfesc := by decide
@[simp] theorem tfend_ne_fend : tfend ≠ fend := by decide
@[simp] theorem tfend_ne_fesc : tfend ≠ fesc := by decide
@[simp] theorem tfend_ne_tfesc : tfend ≠ tfesc := by decide
@[simp] theorem tfesc_ne_fend : tfesc ≠ fend := by decide
@[simp] theorem tfesc_ne_fesc : tfesc ≠ fesc := by decide
@[simp] theorem tfesc_ne_tfend : tfesc ≠ tfend := by decide

end Sys2Proof
end

