-- ==== Sys2Proof/Laws/Memory.lean ====
section
/-! SUPPORT. The laws of one byte space (20_memory.md): read after write, and the canonical form. -/

namespace Sys2Proof.Machine

@[simp] theorem read_nil (a : Nat) : Memory.read? [] a = none := rfl

theorem read_cons (c : Host.Cell) (m : Memory) (a : Nat) :
    Memory.read? (c :: m) a = if c.1 = a then some c.2 else Memory.read? m a := rfl

/-- A byte written is the byte read. -/
@[simp] theorem read_write_same (m : Memory) (a : Nat) (v : Byte) :
    Memory.read? (Memory.write m a v) a = some v := by
  induction m with
  | nil => simp [Memory.write, read_cons]
  | cons c rest ih =>
    unfold Memory.write
    split
    · simp [read_cons]
    · split
      · simp [read_cons]
      · simp [read_cons, *]

/-- A write leaves every other byte alone. -/
theorem read_write_other (m : Memory) {a b : Nat} (v : Byte) (h : b ≠ a) :
    Memory.read? (Memory.write m a v) b = Memory.read? m b := by
  induction m with
  | nil => simp [Memory.write, read_cons, Ne.symm h]
  | cons c rest ih =>
    unfold Memory.write
    split
    · simp [read_cons, Ne.symm h]
    · split
      · rename_i hc
        simp [read_cons, Ne.symm h, hc]
      · simp [read_cons, ih]

/-- The two laws at once. -/
theorem read_write (m : Memory) (a b : Nat) (v : Byte) :
    Memory.read? (Memory.write m a v) b = if b = a then some v else Memory.read? m b := by
  split
  · rename_i h; subst h; simp
  · rename_i h; exact read_write_other m v h

/-- A written cell is one of the old ones or the new one. -/
theorem mem_write {m : Memory} {a : Nat} {v : Byte} {c : Host.Cell} (h : c ∈ Memory.write m a v) :
    c = (a, v) ∨ c ∈ m := by
  induction m with
  | nil => simpa [Memory.write] using h
  | cons d rest ih =>
    unfold Memory.write at h
    split at h
    · simpa using h
    · split at h
      · rcases List.mem_cons.1 h with h | h <;> simp [h]
      · rcases List.mem_cons.1 h with h | h
        · simp [h]
        · rcases ih h with h | h <;> simp [h]

/-- A write keeps the canonical form. -/
theorem write_keeps_wf {m : Memory} (hm : m.wf) (a : Nat) (v : Byte) : (Memory.write m a v).wf := by
  induction m with
  | nil => simp [Memory.write, Memory.wf]
  | cons c rest ih =>
    obtain ⟨hc, hr⟩ := List.pairwise_cons.1 hm
    unfold Memory.write
    split
    · rename_i hlt
      refine List.pairwise_cons.2 ⟨fun d hd => ?_, hm⟩
      rcases List.mem_cons.1 hd with h | h
      · simpa [h] using hlt
      · exact Nat.lt_trans hlt (hc d h)
    · split
      · rename_i heq
        exact List.pairwise_cons.2 ⟨fun d hd => by simpa [← heq] using hc d hd, hr⟩
      · rename_i hlt hne
        refine List.pairwise_cons.2 ⟨fun d hd => ?_, ih hr⟩
        rcases mem_write hd with h | h
        · simp only [h]; omega
        · exact hc d h

/-- The empty space of reset is canonical. -/
theorem reset_memories_wf (c : Config) : (State.resetWith c).dbuf.wf ∧ (State.resetWith c).dst.wf :=
  ⟨List.Pairwise.nil, List.Pairwise.nil⟩

/-- A canonical space is determined by what its cells read as. -/
theorem wf_ext {m n : Memory} (hm : m.wf) (hn : n.wf) (h : ∀ a, Memory.read? m a = Memory.read? n a) : m = n := by
  have none_below : ∀ {l : Memory} {a : Nat}, (∀ d ∈ l, a < d.1) → Memory.read? l a = none := by
    intro l a hl
    induction l with
    | nil => rfl
    | cons d rest ih =>
      have := hl d (by simp)
      rw [read_cons, if_neg (by omega), ih fun e he => hl e (by simp [he])]
  induction m generalizing n with
  | nil =>
    cases n with
    | nil => rfl
    | cons d _ => exact absurd (h d.1) (by simp [read_cons])
  | cons c rest ih =>
    obtain ⟨hc, hr⟩ := List.pairwise_cons.1 hm
    cases n with
    | nil => exact absurd (h c.1) (by simp [read_cons])
    | cons d rest' =>
      obtain ⟨hd, hr'⟩ := List.pairwise_cons.1 hn
      have key : c.1 = d.1 := by
        rcases Nat.lt_trichotomy c.1 d.1 with hlt | heq | hlt
        · have := h c.1
          rw [read_cons, if_pos rfl, read_cons, if_neg (by omega),
            none_below fun e he => Nat.lt_trans hlt (hd e he)] at this
          simp at this
        · exact heq
        · have := h d.1
          rw [read_cons, if_neg (by omega), none_below fun e he => Nat.lt_trans hlt (hc e he), read_cons,
            if_pos rfl] at this
          simp at this
      have hv : c.2 = d.2 := by simpa [read_cons, key] using h c.1
      have hrest : rest = rest' := by
        refine ih hr hr' fun a => ?_
        by_cases ha : c.1 = a
        · rw [none_below fun e he => ha ▸ hc e he, none_below fun e he => (ha ▸ key ▸ hd e he : a < e.1)]
        · have := h a
          rwa [read_cons, if_neg ha, read_cons, if_neg (key ▸ ha)] at this
      rw [hrest, Prod.ext key hv]

/-- The first bytes of a space in which they are all written. -/
theorem firstBytes_eq {m : Memory} {out : List Byte}
    (h : ∀ k, (hk : k < out.length) → Memory.read? m k = some out[k]) : Memory.firstBytes m out.length = out := by
  have : ∀ n, n ≤ out.length → Memory.firstBytes m n = out.take n := by
    intro n hn
    induction n with
    | zero => rfl
    | succ n ih =>
      have hlt : n < out.length := by omega
      have := ih (by omega)
      simp only [Memory.firstBytes] at this ⊢
      rw [List.range_succ, List.filterMap_append, this, List.take_add_one]
      simp [h n hlt, hlt]
  simpa using this out.length (Nat.le_refl _)

end Sys2Proof.Machine
end

