-- ==== Sys2Proof/Laws/State.lean ====
section
/-! SUPPORT. One lemma per field per update of `State`, so that no later proof unfolds a record update. -/

namespace Sys2Proof.Machine

section Report
variable (s : State) (r : Result) (c : List Byte)

@[simp] theorem report_cfg : (s.report r c).cfg = s.cfg := rfl
@[simp] theorem report_fsm : (s.report r c).fsm = s.fsm := rfl
@[simp] theorem report_wcur : (s.report r c).wcur = s.wcur := rfl
@[simp] theorem report_dbuf : (s.report r c).dbuf = s.dbuf := rfl
@[simp] theorem report_epoch : (s.report r c).epoch = s.epoch := rfl
@[simp] theorem report_dst : (s.report r c).dst = s.dst := rfl
@[simp] theorem report_enc : (s.report r c).enc = s.enc := rfl
@[simp] theorem report_pending : (s.report r c).pending = s.pending := rfl
@[simp] theorem report_results : (s.report r c).results = s.results ++ [⟨r, c⟩] := rfl
@[simp] theorem report_readDbuf (a : Nat) : (s.report r c).readDbuf a = s.readDbuf a := rfl
@[simp] theorem report_payload (n : Nat) : (s.report r c).payload n = s.payload n := rfl

end Report

section Append
variable (s : State) (v : Byte)

@[simp] theorem append_cfg : (append v s).cfg = s.cfg := rfl
@[simp] theorem append_fsm : (append v s).fsm = s.fsm := rfl
@[simp] theorem append_wcur : (append v s).wcur = s.wcur + 1 := rfl
@[simp] theorem append_dbuf : (append v s).dbuf = Memory.write s.dbuf s.wcur v := rfl
@[simp] theorem append_epoch : (append v s).epoch = s.epoch := rfl
@[simp] theorem append_dst : (append v s).dst = s.dst := rfl
@[simp] theorem append_enc : (append v s).enc = s.enc := rfl
@[simp] theorem append_pending : (append v s).pending = s.pending := rfl
@[simp] theorem append_results : (append v s).results = s.results := rfl

end Append

section ToIdle
variable (s : State)

@[simp] theorem toIdle_cfg : (toIdle s).cfg = s.cfg := rfl
@[simp] theorem toIdle_fsm : (toIdle s).fsm = .idle := rfl
@[simp] theorem toIdle_wcur : (toIdle s).wcur = 0 := rfl
@[simp] theorem toIdle_dbuf : (toIdle s).dbuf = s.dbuf := rfl
@[simp] theorem toIdle_epoch : (toIdle s).epoch = s.epoch := rfl
@[simp] theorem toIdle_dst : (toIdle s).dst = s.dst := rfl
@[simp] theorem toIdle_enc : (toIdle s).enc = s.enc := rfl
@[simp] theorem toIdle_pending : (toIdle s).pending = s.pending := rfl
@[simp] theorem toIdle_results : (toIdle s).results = s.results := rfl
@[simp] theorem toIdle_readDbuf (a : Nat) : (toIdle s).readDbuf a = s.readDbuf a := rfl

end ToIdle

/-- The three states are the three legal pairs of flags (10_state.md R24). -/
theorem fsmOfFlags_flags (f : Fsm) : fsmOfFlags (inFrameOf f) (inEscapeOf f) = some f := by cases f <;> rfl

/-- INV1 (10_state.md R26): `in_escape` implies `in_frame`, by the type of `fsm`. -/
theorem inFrame_of_inEscape {s : State} (h : s.inEscape = true) : s.inFrame = true := by
  cases hf : s.fsm <;> simp_all [State.inEscape, State.inFrame, inEscapeOf, inFrameOf]

/-- The numbers of the events tell them apart (60_exceptions.md R160). -/
theorem eventCode_injective {e f : Event} (h : eventCode e = eventCode f) : e = f := by
  cases e <;> cases f <;> first | rfl | exact absurd h (by decide)

/-- What the host sees of the decoder's buffer depends on the cells and the draw alone. -/
theorem readDbuf_eq_of_dbuf {s t : State} (hd : t.dbuf = s.dbuf) (he : t.epoch = s.epoch) (a : Nat) :
    t.readDbuf a = s.readDbuf a := by
  simp [State.readDbuf, hd, he]

/-- A written cell reads as what was written, whatever the draw. -/
theorem readDbuf_of_read {s : State} {a : Nat} {v : Byte} (h : Memory.read? s.dbuf a = some v) :
    s.readDbuf a = v := by
  simp [State.readDbuf, h]

end Sys2Proof.Machine
end

