-- ==== Sys2Proof/Laws/Ops.lean ====
section
/-! SUPPORT. One lemma per shared operation that says everything it can do, for the proofs to cite. -/

namespace Sys2Proof.Machine

/-! ## Sequencing -/

@[simp] theorem andThen_next (s : State) (f : State → Run) : andThen (.next s) f = f s := rfl
@[simp] theorem andThen_fault (r : Fault) (f : State → Run) : andThen (.fault r) f = .fault r := rfl
@[simp] theorem andThen_refused (r : Refusal) (f : State → Run) : andThen (.refused r) f = .refused r := rfl

/-- A sequence completes exactly when its parts do. -/
theorem andThen_eq_next {o : Run} {f : State → Run} {t : State} :
    andThen o f = .next t ↔ ∃ u, o = .next u ∧ f u = .next t := by
  cases o <;> simp [andThen]

theorem andThen_assoc (o : Run) (f g : State → Run) :
    andThen (andThen o f) g = andThen o (fun s => andThen (f s) g) := by
  cases o <;> rfl

/-! ## The store of the encoder -/

/-- Everything `emit` can do when it completes. -/
theorem emit_eq_next {v : Byte} {s t : State} :
    emit v s = .next t ↔ ∃ e, s.enc = some e ∧ e.j < e.cap ∧
      t = { s with dst := Memory.write s.dst e.j v, enc := some ⟨e.j + 1, e.cap⟩ } := by
  unfold emit
  cases h : s.enc with
  | none => simp
  | some e =>
    by_cases hb : e.j < e.cap
    · simp [hb, eq_comm]
    · simp [hb]

/-- Where `emit` completes, as an equation. -/
theorem emit_within {s : State} {e : EncRun} (v : Byte) (h : s.enc = some e) (hb : e.j < e.cap) :
    emit v s = .next { s with dst := Memory.write s.dst e.j v, enc := some ⟨e.j + 1, e.cap⟩ } :=
  emit_eq_next.2 ⟨e, h, hb, rfl⟩

theorem emit_outside {s : State} (v : Byte) (h : s.enc = none) : emit v s = .refused .rowNotSelected := by
  simp [emit, h]

theorem emit_beyond {s : State} {e : EncRun} (v : Byte) (h : s.enc = some e) (hb : e.cap ≤ e.j) :
    emit v s = .fault .dstBound := by
  simp [emit, h, Nat.not_lt.2 hb]

/-! ## The byte classes -/

/-- Everything the decode step can do (40_decoder_steps.md R90), arm by arm, with the arm's conditions. -/
theorem dstep_cases (b : Byte) (s : State) :
    (s.fsm = .idle ∧ b = fend ∧ dstep b s = armOpen s) ∨
    (s.fsm = .idle ∧ b ≠ fend ∧ dstep b s = armNoise s) ∨
    (s.fsm = .inFrame ∧ b = fesc ∧ dstep b s = armEscPrefix s) ∨
    (s.fsm = .inFrame ∧ b = fend ∧ 0 < s.wcur ∧ dstep b s = armClose s) ∨
    (s.fsm = .inFrame ∧ b = fend ∧ s.wcur = 0 ∧ dstep b s = armRestart s) ∨
    (s.fsm = .inFrame ∧ b ≠ fend ∧ b ≠ fesc ∧ s.wcur < s.cfg.maxFrame ∧ dstep b s = armData b s) ∨
    (s.fsm = .inFrame ∧ b ≠ fend ∧ b ≠ fesc ∧ s.cfg.maxFrame ≤ s.wcur ∧ dstep b s = armDataOvf s) ∨
    (s.fsm = .inFrameEscape ∧ b = tfend ∧ s.wcur < s.cfg.maxFrame ∧ dstep b s = armEscEnd s) ∨
    (s.fsm = .inFrameEscape ∧ b = tfesc ∧ s.wcur < s.cfg.maxFrame ∧ dstep b s = armEscEsc s) ∨
    (s.fsm = .inFrameEscape ∧ (b = tfend ∨ b = tfesc) ∧ s.cfg.maxFrame ≤ s.wcur ∧ dstep b s = armEscOvf s) ∨
    (s.fsm = .inFrameEscape ∧ b ≠ tfend ∧ b ≠ tfesc ∧ dstep b s = armBadEsc s) := by
  cases hf : s.fsm with
  | idle => by_cases hb : b = fend <;> simp [dstep, classify, hf, hb]
  | inFrame =>
    by_cases h1 : b = fesc
    · simp [dstep, classify, hf, h1]
    · by_cases h2 : b = fend
      · rcases Nat.eq_zero_or_pos s.wcur with h3 | h3
        · simp [dstep, classify, hf, h2, h3]
        · simp [dstep, classify, hf, h2, h3, Nat.pos_iff_ne_zero.1 h3]
      · rcases Nat.lt_or_ge s.wcur s.cfg.maxFrame with h3 | h3
        · simp [dstep, classify, hf, h1, h2, h3]
        · simp [dstep, classify, hf, h1, h2, h3, Nat.not_lt.2 h3]
  | inFrameEscape =>
    rcases Nat.lt_or_ge s.wcur s.cfg.maxFrame with h3 | h3
    · by_cases h1 : b = tfend
      · simp [dstep, classify, hf, h1, h3]
      · by_cases h2 : b = tfesc
        · simp [dstep, classify, hf, h2, h3]
        · simp [dstep, classify, hf, h1, h2]
    · by_cases h1 : b = tfend
      · simp [dstep, classify, hf, h1, h3, Nat.not_lt.2 h3]
      · by_cases h2 : b = tfesc
        · simp [dstep, classify, hf, h2, h3, Nat.not_lt.2 h3]
        · simp [dstep, classify, hf, h1, h2]

/-- The decode step touches the decoder's state alone, and only appends to its buffer. -/
theorem dstep_frame (b : Byte) (s : State) :
    (dstep b s).1.cfg = s.cfg ∧ (dstep b s).1.epoch = s.epoch ∧ (dstep b s).1.dst = s.dst ∧
    (dstep b s).1.enc = s.enc ∧ (dstep b s).1.pending = s.pending ∧ (dstep b s).1.results = s.results := by
  unfold dstep
  split <;> exact ⟨rfl, rfl, rfl, rfl, rfl, rfl⟩

/-- A decode step reports a frame only as CLOSE does. -/
theorem dstep_frame_some {b : Byte} {s : State} {len : Nat} (h : (dstep b s).2.frame = some len) :
    s.fsm = .inFrame ∧ b = fend ∧ 0 < s.wcur ∧ len = s.wcur ∧ dstep b s = armClose s := by
  rcases dstep_cases b s with ⟨-, -, e⟩ | ⟨-, -, e⟩ | ⟨-, -, e⟩ | ⟨h1, h2, h3, e⟩ | ⟨-, -, -, e⟩ | ⟨-, -, -, -, e⟩ |
    ⟨-, -, -, -, e⟩ | ⟨-, -, -, e⟩ | ⟨-, -, -, e⟩ | ⟨-, -, -, e⟩ | ⟨-, -, -, e⟩
  all_goals first
    | (rw [e] at h; exact absurd h (by simp [armOpen, armNoise, armEscPrefix, armRestart, armData, armDataOvf,
        armEscEnd, armEscEsc, armEscOvf, armBadEsc, quiet, abort]))
    | exact ⟨h1, h2, h3, by rw [e] at h; simpa [armClose, eq_comm] using h, e⟩

/-- A property of the decoder's state that every decode step keeps is kept by the loop of DEC_BUF. -/
theorem bufLoop_keeps {P : State → Prop} (hP : ∀ b s, P s → P (dstep b s).1) :
    ∀ (bytes : List Byte) (pos : Nat) (events : List (Nat × Event)) (s : State), P s →
      P (bufLoop bytes pos events s).state := by
  intro bytes
  induction bytes with
  | nil => intro pos events s h; exact h
  | cons b rest ih =>
    intro pos events s h
    unfold bufLoop
    split
    · exact hP b s h
    · exact ih _ _ _ (hP b s h)

end Sys2Proof.Machine
end

