-- ==== Sys2Proof/Laws/Decoder.lean ====
section
/-! SUPPORT. What runs of decode steps amount to: they do not see the host's side of the state, and the loop of DEC_BUF
composes along its list. -/

namespace Sys2Proof.Machine

/-! ## What the decode step does not read -/

theorem dstep_setResults (b : Byte) (s : State) (r : List Observed) :
    dstep b { s with results := r } = ({ (dstep b s).1 with results := r }, (dstep b s).2) := by
  simp only [dstep]
  split <;> rfl

theorem dstep_setEpoch (b : Byte) (s : State) (n : Nat) :
    dstep b { s with epoch := n } = ({ (dstep b s).1 with epoch := n }, (dstep b s).2) := by
  simp only [dstep]
  split <;> rfl

theorem dstep_setDst (b : Byte) (s : State) (d : Memory) :
    dstep b { s with dst := d } = ({ (dstep b s).1 with dst := d }, (dstep b s).2) := by
  simp only [dstep]
  split <;> rfl

/-! ## DEC_READ -/

/-- Everything DEC_READ can do: it is refused with nothing changed, or returns the cell (41_decoder_commands.md R123). -/
theorem execDecRead_cases (addr : Nat) (s : State) :
    (s.cfg.maxFrame ≤ addr ∧ execDecRead addr s = .next s) ∨
    (addr < s.cfg.maxFrame ∧ execDecRead addr s = .next (s.report (.read (s.readDbuf addr)) [])) := by
  rcases Nat.lt_or_ge addr s.cfg.maxFrame with h | h
  · exact .inr ⟨h, by simp [execDecRead, Nat.not_le.2 h]⟩
  · exact .inl ⟨h, by simp [execDecRead, h]⟩

/-! ## The loop of DEC_BUF -/

theorem bufLoop_cons_none {b : Byte} {rest : List Byte} {pos : Nat} {events : List (Nat × Event)} {s : State}
    (h : (dstep b s).2.frame = none) :
    bufLoop (b :: rest) pos events s =
      bufLoop rest (pos + 1) (noteEvent events pos (dstep b s).2.event) (dstep b s).1 := by
  simp [bufLoop, h]

theorem bufLoop_cons_some {b : Byte} {rest : List Byte} {pos len : Nat} {events : List (Nat × Event)} {s : State}
    (h : (dstep b s).2.frame = some len) :
    bufLoop (b :: rest) pos events s =
      ⟨(dstep b s).1, some len, pos + 1, noteEvent events pos (dstep b s).2.event⟩ := by
  simp [bufLoop, h]

/-- A list that completes no frame leaves the loop to go on with what follows. -/
theorem bufLoop_append {w x : List Byte} {pos : Nat} {events : List (Nat × Event)} {s : State}
    (h : (bufLoop w pos events s).frame = none) :
    bufLoop (w ++ x) pos events s =
      bufLoop x (bufLoop w pos events s).consumed (bufLoop w pos events s).events (bufLoop w pos events s).state := by
  induction w generalizing pos events s with
  | nil => rfl
  | cons b rest ih =>
    cases hf : (dstep b s).2.frame with
    | some len => rw [bufLoop_cons_some hf] at h; simp at h
    | none =>
      rw [bufLoop_cons_none hf] at h
      rw [List.cons_append, bufLoop_cons_none hf, bufLoop_cons_none hf, ih h]

/-- A list that completes a frame is left where it does. -/
theorem bufLoop_append_some {w x : List Byte} {pos len : Nat} {events : List (Nat × Event)} {s : State}
    (h : (bufLoop w pos events s).frame = some len) : bufLoop (w ++ x) pos events s = bufLoop w pos events s := by
  induction w generalizing pos events s with
  | nil => simp [bufLoop] at h
  | cons b rest ih =>
    cases hf : (dstep b s).2.frame with
    | some len => rw [List.cons_append, bufLoop_cons_some hf, bufLoop_cons_some hf]
    | none =>
      rw [bufLoop_cons_none hf] at h
      rw [List.cons_append, bufLoop_cons_none hf, bufLoop_cons_none hf, ih h]

/-- In Idle, bytes that are not FEND pass without a trace (40_decoder_steps.md R92). -/
theorem bufLoop_noise {w : List Byte} {s : State} (hs : s.fsm = .idle) (hw : fend ∉ w) (pos : Nat)
    (events : List (Nat × Event)) : bufLoop w pos events s = ⟨s, none, pos + w.length, events⟩ := by
  induction w generalizing pos with
  | nil => rfl
  | cons b rest ih =>
    have hb : b ≠ fend := fun h => hw (by simp [h])
    have e : dstep b s = armNoise s := by simp [dstep, classify, hs, hb]
    have hr : fend ∉ rest := fun h => hw (by simp [h])
    rw [bufLoop_cons_none (by rw [e]; rfl), e, List.length_cons]
    simp only [armNoise, quiet, noteEvent, if_pos]
    rw [ih hr, Nat.add_assoc, Nat.add_comm 1]

/-- In a frame with room, the image of a byte appends it (R96, R98, R99). -/
theorem bufLoop_image {v : Byte} {s : State} (hs : s.fsm = .inFrame) (hw : s.wcur < s.cfg.maxFrame) (pos : Nat)
    (events : List (Nat × Event)) :
    bufLoop (image v) pos events s = ⟨append v s, none, pos + (image v).length, events⟩ := by
  by_cases h1 : v = fend
  · subst h1
    simp [image, bufLoop, dstep, classify, hs, hw, armEscPrefix, armEscEnd, quiet, noteEvent, append]
  · by_cases h2 : v = fesc
    · subst h2
      simp [image, bufLoop, dstep, classify, hs, hw, armEscPrefix, armEscEsc, quiet, noteEvent, append]
    · simp [image, bufLoop, dstep, classify, hs, hw, h1, h2, armData, quiet, noteEvent]

/-- A payload appended byte by byte. -/
def appendAll (p : List Byte) (s : State) : State := p.foldl (fun s v => append v s) s

@[simp] theorem appendAll_nil (s : State) : appendAll [] s = s := rfl

theorem appendAll_cons (v : Byte) (p : List Byte) (s : State) : appendAll (v :: p) s = appendAll p (append v s) := rfl

/-- Everything a payload appended in order does. -/
theorem appendAll_spec (p : List Byte) (s : State) :
    ∃ d, appendAll p s = { s with dbuf := d, wcur := s.wcur + p.length } ∧
      ∀ a, Memory.read? d a = if s.wcur ≤ a ∧ a < s.wcur + p.length then p[a - s.wcur]? else Memory.read? s.dbuf a := by
  induction p generalizing s with
  | nil => exact ⟨s.dbuf, rfl, fun a => by rw [if_neg]; simp⟩
  | cons v rest ih =>
    obtain ⟨d, hd, hr⟩ := ih (append v s)
    refine ⟨d, ?_, fun a => ?_⟩
    · rw [appendAll_cons, hd]; simp [append]; omega
    · rw [hr a]
      simp only [append_wcur, append_dbuf, List.length_cons, read_write]
      by_cases h0 : a = s.wcur
      · subst h0; rw [if_neg (by omega), if_pos rfl, if_pos (by omega)]; simp
      · by_cases h1 : s.wcur + 1 ≤ a ∧ a < s.wcur + 1 + rest.length
        · rw [if_pos h1, if_pos (by omega), List.getElem?_cons, if_neg (by omega), Nat.sub_add_eq]
        · rw [if_neg h1, if_neg h0, if_neg (by omega)]

/-- In a frame with room for all of it, the images of a payload append it in order. -/
theorem bufLoop_images {p : List Byte} {s : State} (hs : s.fsm = .inFrame) (hw : s.wcur + p.length ≤ s.cfg.maxFrame)
    (pos : Nat) (events : List (Nat × Event)) :
    bufLoop (p.flatMap image) pos events s = ⟨appendAll p s, none, pos + (p.flatMap image).length, events⟩ := by
  induction p generalizing s pos with
  | nil => rfl
  | cons v rest ih =>
    rw [List.length_cons] at hw
    have h := bufLoop_image (v := v) hs (by omega) pos events
    rw [List.flatMap_cons, bufLoop_append (by rw [h]), h, ih (by simpa using hs) (by simp; omega), List.length_append,
      Nat.add_assoc, appendAll_cons]

/-- No image holds a FEND (42_encoder.md R151). -/
theorem fend_not_mem_images (p : List Byte) : fend ∉ p.flatMap image := by
  simp only [List.mem_flatMap, not_exists, not_and]
  intro v _
  by_cases h1 : v = fend
  · simp [image, h1]
  · by_cases h2 : v = fesc
    · simp [image, h2]
    · simp [image, h1, h2]; exact fun h => h1 h.symm

end Sys2Proof.Machine
end

