-- ==== Sys2Proof/Laws/Encoder.lean ====
section
/-! SUPPORT. What the stores of an ENC amount to: a run of emits puts a byte string at the destination index. -/

namespace Sys2Proof.Machine

/-- The cells of `d` are those of `m` with `w` laid over them from index `j` on. -/
def Overlaid (m d : Memory) (j : Nat) (w : List Byte) : Prop :=
  ∀ a, Memory.read? d a = if j ≤ a ∧ a < j + w.length then w[a - j]? else Memory.read? m a

/-- `f` emits `w`: inside an ENC with room for it, it lays `w` over DST at the destination index, advances the index
past it, keeps the canonical form and changes nothing else. -/
def Emits (w : List Byte) (f : State → Run) : Prop :=
  ∀ (s : State) (e : EncRun), s.enc = some e → e.j + w.length ≤ e.cap →
    ∃ d, f s = .next { s with dst := d, enc := some ⟨e.j + w.length, e.cap⟩ } ∧ Overlaid s.dst d e.j w ∧
      (s.dst.wf → d.wf)

theorem Emits.nil : Emits [] (fun s => .next s) := by
  intro s e he _
  refine ⟨s.dst, ?_, fun a => ?_, id⟩
  · cases s; simp_all
  · rw [if_neg]; simp

theorem Emits.one (v : Byte) : Emits [v] (emit v) := by
  intro s e he hb
  simp only [List.length_singleton] at hb
  refine ⟨_, emit_within v he (by omega), fun a => ?_, fun h => write_keeps_wf h _ _⟩
  rw [read_write]
  by_cases ha : a = e.j
  · subst ha; simp
  · rw [if_neg ha, if_neg (by simp; omega)]

theorem Emits.append {w x : List Byte} {f g : State → Run} (hf : Emits w f) (hg : Emits x g) :
    Emits (w ++ x) (fun s => andThen (f s) g) := by
  intro s e he hb
  rw [List.length_append] at hb
  obtain ⟨d, hd, hread, hwf⟩ := hf s e he (by omega)
  obtain ⟨d', hd', hread', hwf'⟩ := hg { s with dst := d, enc := some ⟨e.j + w.length, e.cap⟩ } _ rfl (by simp only; omega)
  refine ⟨d', ?_, fun a => ?_, fun h => hwf' (hwf h)⟩
  · simp only [hd, andThen_next, hd', List.length_append, Nat.add_assoc]
  · rw [hread' a, hread a, List.length_append]
    simp only
    rcases Nat.lt_or_ge a e.j with h1 | h1
    · rw [if_neg (by omega), if_neg (by omega), if_neg (by omega)]
    · rcases Nat.lt_or_ge a (e.j + w.length) with h2 | h2
      · rw [if_neg (by omega), if_pos ⟨h1, h2⟩, if_pos (by omega), List.getElem?_append_left (by omega)]
      · rcases Nat.lt_or_ge a (e.j + w.length + x.length) with h3 | h3
        · rw [if_pos ⟨h2, h3⟩, if_pos (by omega), List.getElem?_append_right (by omega)]
          congr 1; omega
        · rw [if_neg (by omega), if_neg (by omega), if_neg (by omega)]

/-- The emit step of a source byte emits its wire image (30_encoding.md R63). -/
theorem emitStep_emits (v : Byte) : Emits (image v) (emitStep v) := by
  have pair : ∀ x y : Byte, Emits [x, y] (fun s => andThen (emit x s) (emit y)) := fun x y =>
    (Emits.one x).append (Emits.one y)
  by_cases h1 : v = fend
  · have : emitStep v = fun s => andThen (emit fesc s) (emit tfend) := by
      funext s; simp [emitStep, classifySrc, h1, execSrcFend]
    rw [this]; simpa [image, h1] using pair fesc tfend
  · by_cases h2 : v = fesc
    · have : emitStep v = fun s => andThen (emit fesc s) (emit tfesc) := by
        funext s; simp [emitStep, classifySrc, h2, execSrcFesc]
      rw [this]; simpa [image, h2] using pair fesc tfesc
    · have : emitStep v = emit v := by
        funext s; simp [emitStep, classifySrc, execSrcPlain, h1, h2]
      rw [this]; simpa [image, h1, h2] using Emits.one v

/-- The loop of ENC emits the images of the source in order. -/
theorem emitAll_emits (src : List Byte) : Emits (src.flatMap image) (emitAll src) := by
  induction src with
  | nil => exact Emits.nil
  | cons v rest ih => simpa [emitAll] using (emitStep_emits v).append ih

/-- The image of a byte is two bytes when it needs escaping and one otherwise. -/
theorem image_length (v : Byte) : (image v).length = if needsEscape v then 2 else 1 := by
  by_cases h1 : v = fend
  · simp [image, needsEscape, h1]
  · by_cases h2 : v = fesc
    · simp [image, needsEscape, h2]
    · simp [image, needsEscape, h1, h2]

/-- The size of the images of a source. -/
theorem images_length (src : List Byte) : (src.flatMap image).length = src.length + escapeCount src := by
  induction src with
  | nil => rfl
  | cons v rest ih =>
    have h : escapeCount (v :: rest) = escapeCount rest + if needsEscape v then 1 else 0 := List.countP_cons
    rw [List.flatMap_cons, List.length_append, ih, image_length, h, List.length_cons]
    split <;> omega

theorem wireFrame_length (src : List Byte) : (wireFrame src).length = src.length + escapeCount src + 2 := by
  rw [wireFrame, List.length_cons, List.length_append, images_length, List.length_singleton]

/-- The folded size of 42_encoder.md R140 in closed form. -/
theorem encodedSize_eq (src : List Byte) : encodedSize src = src.length + escapeCount src + 2 := by
  have : ∀ n, src.foldl (fun size v => if needsEscape v then size + 2 else size + 1) n =
      n + (src.length + escapeCount src) := by
    induction src with
    | nil => intro n; rfl
    | cons v rest ih =>
      intro n
      have h : escapeCount (v :: rest) = escapeCount rest + if needsEscape v then 1 else 0 := List.countP_cons
      rw [List.foldl_cons, ih, h, List.length_cons]
      split <;> omega
  rw [encodedSize, this]; omega

end Sys2Proof.Machine
end

