-- ==== Sys2Proof/Laws/PerInstr.lean ====
section
/-! SUPPORT. Per instruction: what is encoded is exactly one wire byte (10_state.md R27, 30_encoding.md R62), and what is
not encoded is a command (R77). -/

namespace Sys2Proof.Laws.OneByte

/-- The wire form of an instruction is one byte, or it has none and is a command. -/
def Statement (i : Instr) : Prop :=
  (∃ b, encode i = some [b] ∧ i.isCommand = false) ∨ (encode i = none ∧ i.isCommand = true)

theorem openFrame : Statement .openFrame := Or.inl ⟨_, rfl, rfl⟩
theorem noise (v : Byte) : Statement (.noise v) := Or.inl ⟨_, rfl, rfl⟩
theorem escPrefix : Statement .escPrefix := Or.inl ⟨_, rfl, rfl⟩
theorem closeFrame : Statement .closeFrame := Or.inl ⟨_, rfl, rfl⟩
theorem restart : Statement .restart := Or.inl ⟨_, rfl, rfl⟩
theorem data (v : Byte) : Statement (.data v) := Or.inl ⟨_, rfl, rfl⟩
theorem dataOvf (v : Byte) : Statement (.dataOvf v) := Or.inl ⟨_, rfl, rfl⟩
theorem escEnd : Statement .escEnd := Or.inl ⟨_, rfl, rfl⟩
theorem escEsc : Statement .escEsc := Or.inl ⟨_, rfl, rfl⟩
theorem escOvf (x : BitVec 1) : Statement (.escOvf x) := Or.inl ⟨_, rfl, rfl⟩
theorem badEsc (v : Byte) : Statement (.badEsc v) := Or.inl ⟨_, rfl, rfl⟩
theorem srcFend : Statement .srcFend := Or.inl ⟨_, rfl, rfl⟩
theorem srcFesc : Statement .srcFesc := Or.inl ⟨_, rfl, rfl⟩
theorem srcPlain (v : Byte) : Statement (.srcPlain v) := Or.inl ⟨_, rfl, rfl⟩
theorem decByte (b : Byte) : Statement (.decByte b) := Or.inr ⟨rfl, rfl⟩
theorem decBuf (bytes : List Byte) : Statement (.decBuf bytes) := Or.inr ⟨rfl, rfl⟩
theorem decRead (addr : Nat) : Statement (.decRead addr) := Or.inr ⟨rfl, rfl⟩
theorem encSize (src : List Byte) : Statement (.encSize src) := Or.inr ⟨rfl, rfl⟩
theorem enc (src : List Byte) (dstCap : Nat) : Statement (.enc src dstCap) := Or.inr ⟨rfl, rfl⟩
theorem reset : Statement .reset := Or.inr ⟨rfl, rfl⟩

end Sys2Proof.Laws.OneByte
end

