-- ==== Sys2Proof/Tests/Slice0.lean ====
section
/-! SUPPORT. The model's own tests: expected values come from the opcode table and from spec/95_test_vectors.md, whose
vector is named at each. Below them, for every statement with hypotheses, a witness that meets them. -/

open Sys2Proof Sys2Proof.Machine

namespace Sys2Proof.Tests

/-- A block of capacity `max` in the given decoder state, nothing else. -/
def block (max : Nat) (fsm : Fsm) (wcur : Nat) (dbuf : Memory) : State :=
  { State.resetWith ⟨max⟩ with fsm := fsm, wcur := wcur, dbuf := dbuf }

/-- A block with an ENC in progress. -/
def encoding (j cap : Nat) : State := { State.reset with enc := some ⟨j, cap⟩ }

/-- A block with commands waiting. -/
def waiting (cs : List Command) : State := { State.reset with pending := cs }

/-- The decoder's state, cursor and listed cells, and the last result. -/
def view (s : State) : Fsm × Nat × Memory × Option Observed := (s.fsm, s.wcur, s.dbuf, s.results.getLast?)

/-- The encoder's index and DST, and the last result. -/
def encView (s : State) : Option EncRun × Memory × Option Observed := (s.enc, s.dst, s.results.getLast?)

/-- A view of the next state, none where there is no next state. -/
def after {α : Type} (o : Run) (f : State → α) : Option α :=
  match o with
  | .next s => some (f s)
  | .fault _ => none
  | .refused _ => none

/-- The name of a stop, if the outcome is one. -/
def stop (o : Run) : Option (Fault ⊕ Refusal) :=
  match o with
  | .next _ => none
  | .fault r => some (.inl r)
  | .refused r => some (.inr r)

/-! ## Well-formedness: each check refuses -/

theorem test_wf_noise_refuses_fend : (Instr.noise 0xC0#8).wellFormed = false := by decide
theorem test_wf_data_refuses_fend : (Instr.data 0xC0#8).wellFormed = false := by decide
theorem test_wf_data_refuses_fesc : (Instr.data 0xDB#8).wellFormed = false := by decide
theorem test_wf_dataOvf_refuses_fend : (Instr.dataOvf 0xC0#8).wellFormed = false := by decide
theorem test_wf_dataOvf_refuses_fesc : (Instr.dataOvf 0xDB#8).wellFormed = false := by decide
theorem test_wf_srcPlain_refuses_fend : (Instr.srcPlain 0xC0#8).wellFormed = false := by decide
theorem test_wf_srcPlain_refuses_fesc : (Instr.srcPlain 0xDB#8).wellFormed = false := by decide
theorem test_wf_badEsc_refuses_tfend : (Instr.badEsc 0xDC#8).wellFormed = false := by decide
theorem test_wf_badEsc_refuses_tfesc : (Instr.badEsc 0xDD#8).wellFormed = false := by decide
theorem test_config_refuses_zero : Config.ofMaxFrame? 0 = none ∧ Config.ofMaxFrame? 1 = some ⟨1⟩ := by decide

/-! ## Decoding: every row's byte, written out from the `encoding` column -/

theorem test_decode_openFrame : decode (.dec .idle 0 255) [0b11000000#8] = .instr .openFrame [] := by decide
theorem test_decode_noise : decode (.dec .idle 0 255) [0b11011011#8, 1#8] = .instr (.noise 0xDB#8) [1#8] := by decide
theorem test_decode_escPrefix : decode (.dec .inFrame 255 255) [0b11011011#8] = .instr .escPrefix [] := by decide
theorem test_decode_closeFrame : decode (.dec .inFrame 1 255) [0b11000000#8] = .instr .closeFrame [] := by decide
theorem test_decode_restart : decode (.dec .inFrame 0 255) [0b11000000#8] = .instr .restart [] := by decide
theorem test_decode_data : decode (.dec .inFrame 254 255) [0b11011100#8] = .instr (.data 0xDC#8) [] := by decide
theorem test_decode_dataOvf : decode (.dec .inFrame 255 255) [0b00000000#8] = .instr (.dataOvf 0#8) [] := by decide
theorem test_decode_escEnd : decode (.dec .inFrameEscape 254 255) [0b11011100#8] = .instr .escEnd [] := by decide
theorem test_decode_escEsc : decode (.dec .inFrameEscape 254 255) [0b11011101#8] = .instr .escEsc [] := by decide
theorem test_decode_escOvf_0 : decode (.dec .inFrameEscape 4 4) [0b11011100#8] = .instr (.escOvf 0#1) [] := by decide
theorem test_decode_escOvf_1 : decode (.dec .inFrameEscape 4 4) [0b11011101#8] = .instr (.escOvf 1#1) [] := by decide
theorem test_decode_badEsc : decode (.dec .inFrameEscape 4 4) [0b11000000#8] = .instr (.badEsc 0xC0#8) [] := by decide
theorem test_decode_srcFend : decode .enc [0b11000000#8] = .instr .srcFend [] := by decide
theorem test_decode_srcFesc : decode .enc [0b11011011#8] = .instr .srcFesc [] := by decide
theorem test_decode_srcPlain : decode .enc [0b11011100#8] = .instr (.srcPlain 0xDC#8) [] := by decide
theorem test_decode_nothing : decode .enc [] = .rejected .noByte := by decide
theorem test_bare_words : [0xC0, 0xDB, 0xDC, 0xDD, 0x00].map (decodeTableWord 8) =
    [some .openFrame, some .escPrefix, some .escEnd, some .escEsc, some (.noise 0#8)] := by decide
theorem test_bare_words_of_no_row : decodeTableWord 0 0 = none ∧ decodeTableWord 16 0 = none := by decide
theorem test_event_codes : [Event.noEvent, .badEscape, .frameTooLarge, .encCapacity].map eventCode = [0, 1, 2, 3] := by
  decide
theorem test_flag_pairs : fsmOfFlags true true = some .inFrameEscape ∧ fsmOfFlags false true = none := by decide

/-! ## One step of each instruction -/

/-- A1. -/
theorem test_openFrame : after (exec .openFrame State.reset) view =
    some (.inFrame, 0, [], some ⟨.step none .noEvent, []⟩) := by decide

/-- A3. -/
theorem test_noise : after (exec (.noise 0xDB#8) State.reset) view =
    some (.idle, 0, [], some ⟨.step none .noEvent, []⟩) := by decide

/-- A7: the prefix is accepted at a full buffer. -/
theorem test_escPrefix_full : after (exec .escPrefix (block 255 .inFrame 255 [])) view =
    some (.inFrameEscape, 255, [], some ⟨.step none .noEvent, []⟩) := by decide

/-- A8. -/
theorem test_closeFrame : after (exec .closeFrame (block 255 .inFrame 2 [(0, 0x0A#8), (1, 0x0B#8)])) view =
    some (.idle, 0, [(0, 0x0A#8), (1, 0x0B#8)], some ⟨.step (some 2) .noEvent, [0x0A#8, 0x0B#8]⟩) := by decide

/-- A11. -/
theorem test_restart : after (exec .restart (block 255 .inFrame 0 [])) view =
    some (.inFrame, 0, [], some ⟨.step none .noEvent, []⟩) := by decide

/-- A15: the last cell. -/
theorem test_data_last_cell : after (exec (.data 0#8) (block 255 .inFrame 254 [])) view =
    some (.inFrame, 255, [(254, 0#8)], some ⟨.step none .noEvent, []⟩) := by decide

/-- A13, over a stale cell. -/
theorem test_data_overwrites : after (exec (.data 0xDC#8) (block 255 .inFrame 7 [(0, 1#8), (7, 0#8), (9, 2#8)])) view =
    some (.inFrame, 8, [(0, 1#8), (7, 0xDC#8), (9, 2#8)], some ⟨.step none .noEvent, []⟩) := by decide

/-- A17: the buffer is kept. -/
theorem test_dataOvf : after (exec (.dataOvf 0xDC#8) (block 4 .inFrame 4 [(3, 5#8)])) view =
    some (.idle, 0, [(3, 5#8)], some ⟨.step none .frameTooLarge, []⟩) := by decide

/-- A20. -/
theorem test_escEnd : after (exec .escEnd (block 255 .inFrameEscape 254 [])) view =
    some (.inFrame, 255, [(254, 0xC0#8)], some ⟨.step none .noEvent, []⟩) := by decide

/-- A19. -/
theorem test_escEsc : after (exec .escEsc (block 255 .inFrameEscape 5 [])) view =
    some (.inFrame, 6, [(5, 0xDB#8)], some ⟨.step none .noEvent, []⟩) := by decide

/-- A22. -/
theorem test_escOvf : after (exec (.escOvf 1#1) (block 255 .inFrameEscape 255 [])) view =
    some (.idle, 0, [], some ⟨.step none .frameTooLarge, []⟩) := by decide

/-- A24: a FEND after FESC neither closes nor opens. -/
theorem test_badEsc_fend : after (exec (.badEsc 0xC0#8) (block 255 .inFrameEscape 3 [])) view =
    some (.idle, 0, [], some ⟨.step none .badEscape, []⟩) := by decide

/-- A26: at a full buffer it is still BAD_ESCAPE. -/
theorem test_badEsc_full : after (exec (.badEsc 0#8) (block 255 .inFrameEscape 255 [])) view =
    some (.idle, 0, [], some ⟨.step none .badEscape, []⟩) := by decide

/-- R142. -/
theorem test_srcFend : after (exec .srcFend (encoding 1 3)) encView =
    some (some ⟨3, 3⟩, [(1, 0xDB#8), (2, 0xDC#8)], none) := by decide

/-- R44 (c): the second byte of the pair would stand at the capacity. -/
theorem test_srcFend_beyond : stop (exec .srcFend (encoding 1 2)) = some (.inl .dstBound) := by decide

/-- R143. -/
theorem test_srcFesc : after (exec .srcFesc (encoding 1 3)) encView =
    some (some ⟨3, 3⟩, [(1, 0xDB#8), (2, 0xDD#8)], none) := by decide

/-- R144: `0xDC` is plain. -/
theorem test_srcPlain : after (exec (.srcPlain 0xDC#8) (encoding 1 2)) encView =
    some (some ⟨2, 2⟩, [(1, 0xDC#8)], none) := by decide

/-- A23, by the command. -/
theorem test_decByte : after (exec (.decByte 0x99#8) (block 255 .inFrameEscape 3 [])) view =
    some (.idle, 0, [], some ⟨.step none .badEscape, []⟩) := by decide

/-- The example of R121: the last three bytes are not read. -/
theorem test_decBuf_stops :
    after (exec (.decBuf [0xC0#8, 0x41#8, 0x42#8, 0xC0#8, 0xC0#8, 0x43#8, 0xC0#8])
      (block 255 .inFrameEscape 9 [])) view =
    some (.idle, 0, [(0, 0x41#8), (1, 0x42#8)], some ⟨.buf (some 2) 4 [], [0x41#8, 0x42#8]⟩) := by decide

/-- P4, the last command: the oversize frame, then one that fits. -/
theorem test_decBuf_oversize :
    after (exec (.decBuf [0xC0#8, 1#8, 2#8, 0xDB#8, 0xDC#8, 4#8, 5#8, 0xC0#8, 0xC0#8, 1#8, 2#8, 0xDB#8, 0xDC#8, 4#8,
      0xC0#8]) (block 4 .idle 0 [])) view =
    some (.idle, 0, [(0, 1#8), (1, 2#8), (2, 0xC0#8), (3, 4#8)],
      some ⟨.buf (some 4) 15 [(6, .frameTooLarge)], [1#8, 2#8, 0xC0#8, 4#8]⟩) := by decide

/-- The example of R123. -/
theorem test_decRead : after (exec (.decRead 1) (block 255 .idle 0 [(0, 0x41#8), (1, 0x42#8)])) view =
    some (.idle, 0, [(0, 0x41#8), (1, 0x42#8)], some ⟨.read 0x42#8, []⟩) := by decide

/-- R123: refused at MAX_FRAME, no byte returned and no state change, and the next command runs (R171). -/
theorem test_decRead_refused : after (andThen (step (waiting [.decRead 255, .decByte 0xC0#8])) step) view =
    some (.inFrame, 0, [], some ⟨.step none .noEvent, []⟩) := by decide

/-- E1: the formula at the empty source. -/
theorem test_encSize_empty : after (exec (.encSize []) State.reset) encView = some (none, [], some ⟨.size 2, []⟩) := by
  decide

/-- The example of R140. -/
theorem test_encSize : after (exec (.encSize [1#8, 0xC0#8, 0xDB#8, 2#8]) State.reset) encView =
    some (none, [], some ⟨.size 8, []⟩) := by decide

/-- E5. -/
theorem test_enc : after (exec (.enc [1#8, 0xC0#8, 0xDB#8, 2#8] 8) State.reset) (fun s => s.results.getLast?) =
    some (some ⟨.enc 8 .noEvent, [0xC0#8, 1#8, 0xDB#8, 0xDC#8, 0xDB#8, 0xDD#8, 2#8, 0xC0#8]⟩) := by decide

/-- E6. -/
theorem test_enc_capacity : after (exec (.enc [1#8, 0xC0#8, 0xDB#8, 2#8] 7) State.reset) encView =
    some (none, [], some ⟨.enc 0 .encCapacity, []⟩) := by decide

/-- R190. -/
theorem test_reset : after (exec .reset (block 4 .inFrameEscape 3 [(0, 1#8)])) view = some (.idle, 0, [], none) := by
  decide

/-- The first step after reset runs the byte placed. -/
theorem test_step_runs_the_word : after (step (State.reset.withFetchWord 8 0xC0)) view =
    some (.inFrame, 0, [], some ⟨.step none .noEvent, []⟩) := by decide

/-! ## Witnesses: each meets the hypotheses of the statement it is named after -/

theorem witness_OpenStartsAFrame : State.reset.fsm = .idle := rfl
theorem witness_NoiseChangesNothing : State.reset.fsm = .idle ∧ 0xDB#8 ≠ 0xC0#8 := by decide
theorem witness_EscPrefixArmsTheEscape : (block 4 .inFrame 4 []).fsm = .inFrame := rfl
theorem witness_CloseReportsTheFrame : (block 4 .inFrame 1 []).fsm = .inFrame ∧ 0 < (block 4 .inFrame 1 []).wcur := by
  decide
theorem witness_RestartReportsNothing : (block 4 .inFrame 0 []).fsm = .inFrame ∧ (block 4 .inFrame 0 []).wcur = 0 := by
  decide
theorem witness_DataAppendsTheByte : (block 4 .inFrame 3 []).fsm = .inFrame ∧ 0xDC#8 ≠ 0xC0#8 ∧ 0xDC#8 ≠ 0xDB#8 ∧
    (block 4 .inFrame 3 []).wcur < (block 4 .inFrame 3 []).cfg.maxFrame := by decide
theorem witness_DataOvfAbortsTheFrame : (block 4 .inFrame 4 []).fsm = .inFrame ∧ 0xDC#8 ≠ 0xC0#8 ∧ 0xDC#8 ≠ 0xDB#8 ∧
    (block 4 .inFrame 4 []).wcur = (block 4 .inFrame 4 []).cfg.maxFrame := by decide
theorem witness_EscEndAppendsFend : (block 4 .inFrameEscape 3 []).fsm = .inFrameEscape ∧
    (block 4 .inFrameEscape 3 []).wcur < (block 4 .inFrameEscape 3 []).cfg.maxFrame := by decide
theorem witness_EscEscAppendsFesc : (block 1 .inFrameEscape 0 []).fsm = .inFrameEscape ∧
    (block 1 .inFrameEscape 0 []).wcur < (block 1 .inFrameEscape 0 []).cfg.maxFrame := by decide
theorem witness_EscOvfAbortsTheFrame : (block 4 .inFrameEscape 4 []).fsm = .inFrameEscape ∧
    (block 4 .inFrameEscape 4 []).wcur = (block 4 .inFrameEscape 4 []).cfg.maxFrame := by decide
theorem witness_BadEscAbortsTheFrame : (block 4 .inFrameEscape 4 []).fsm = .inFrameEscape ∧ 0xC0#8 ≠ 0xDC#8 ∧
    0xC0#8 ≠ 0xDD#8 := by decide

theorem witness_UnselectedDecoderRowIsRefused : Instr.escPrefix.isCommand = false ∧ Instr.escPrefix ≠ .srcFend ∧
    Instr.escPrefix ≠ .srcFesc ∧ (∀ v, Instr.escPrefix ≠ .srcPlain v) ∧
    ∀ b, decodeByte State.reset.ctx b ≠ .escPrefix := by
  refine ⟨rfl, by decide, by decide, by simp, fun b => ?_⟩
  by_cases h : b = fend <;> simp [decodeByte, State.ctx, State.reset, State.resetWith, classify, h, DecClass.toInstr]

theorem witness_DecodeInvertsEncode : (Instr.escOvf 1#1).wellFormed = true ∧
    (Instr.escOvf 1#1).appliesIn (.dec .inFrameEscape 4 4) = true ∧ encode (.escOvf 1#1) = some [0xDD#8] ∧
    (Instr.escOvf 1#1).isCommand = false := by decide

theorem witness_EncodeInvertsDecode : (∀ fsm wcur maxFrame, Ctx.dec .inFrame 4 4 = .dec fsm wcur maxFrame →
    wcur ≤ maxFrame) ∧ ∀ fsm wcur maxFrame, Ctx.enc = .dec fsm wcur maxFrame → wcur ≤ maxFrame := by
  refine ⟨fun _ _ _ h => ?_, fun _ _ _ h => nomatch h⟩
  injection h with _ h1 h2
  omega

theorem witness_TableSelectsTheDecodedRow : ∀ fsm wcur maxFrame, Ctx.dec .inFrameEscape 0 1 = .dec fsm wcur maxFrame →
    wcur ≤ maxFrame := by
  intro _ _ _ h
  injection h with _ h1 h2
  omega

theorem witness_StepRunsTheDecodedInstruction : (waiting [.decByte 0xC0#8]).pending = .decByte 0xC0#8 :: [] ∧
    decode (waiting [.decByte 0xC0#8]).ctx [0xC0#8] = .instr .openFrame [] ∧ (waiting []).pending = [] := by decide

theorem witness_FetchedWordRunsNext : State.reset.cfg.Legal ∧ decodeTableWord 8 0 = some (.noise 0#8) ∧
    decodeTableWord 8 0xDD = some .escEsc ∧ decodeTableWord 8 255 = some (.noise 255#8) := by decide

theorem witness_EveryCommandCompletes : (waiting [.decRead 255, .reset]).pending = .decRead 255 :: [.reset] :=
  rfl

theorem witness_TransitionGraphOfTheDecoder :
    (∃ t, exec (.decByte 0xC0#8) (block 4 .idle 0 []) = .next t) ∧ (block 4 .idle 0 []).fsm = .idle ∧
    (∃ t, exec (.decByte 0xC0#8) (block 4 .inFrame 0 []) = .next t) ∧ (block 4 .inFrame 0 []).fsm = .inFrame ∧
    (∃ t, exec (.decByte 0xDC#8) (block 4 .inFrameEscape 4 []) = .next t) ∧
    (block 4 .inFrameEscape 4 []).fsm = .inFrameEscape :=
  ⟨⟨_, rfl⟩, rfl, ⟨_, rfl⟩, rfl, ⟨_, rfl⟩, rfl⟩

theorem witness_EventsAndTheAbort : (block 4 .inFrameEscape 4 []).wcur ≤ (block 4 .inFrameEscape 4 []).cfg.maxFrame ∧
    (block 4 .inFrame 3 []).wcur ≤ (block 4 .inFrame 3 []).cfg.maxFrame := by decide

theorem witness_DecBufIgnoresUnprocessedBytes : ∃ t, exec (.decBuf [0xC0#8, 0x41#8, 0xC0#8, 0x99#8]) State.reset = .next t ∧
    t.results = State.reset.results ++ [⟨.buf (some 1) 3 [], [0x41#8]⟩] :=
  ⟨_, rfl, rfl⟩

theorem witness_DecBufOfNoiseOnly : 0xC0#8 ∉ ([] : List Byte) ∧ 0xC0#8 ∉ [0xDB#8, 0xDC#8] := by decide

theorem witness_DecReadReturnsTheCell : 254 < State.reset.cfg.maxFrame ∧ State.reset.cfg.maxFrame ≤ 255 := by decide

/-- A state of the invariant in the middle of a frame. -/
theorem inv_inFrame : (block 4 .inFrame 1 [(0, 0x41#8)]).Inv where
  cfg_legal := by decide
  wcur_le := by decide
  idle_wcur := by decide
  dbuf_wf := by decide
  dbuf_bound := by decide
  dbuf_written := by decide
  dst_wf := by decide
  enc_bound := by decide

/-- A state of the invariant in the middle of an ENC. -/
theorem inv_encoding : (encoding 3 3).Inv where
  cfg_legal := by decide
  wcur_le := by decide
  idle_wcur := by decide
  dbuf_wf := by decide
  dbuf_bound := by decide
  dbuf_written := by decide
  dst_wf := by decide
  enc_bound := by decide

theorem witness_ReportedFramesAreWhole : (block 4 .inFrame 1 [(0, 0x41#8)]).Inv ∧
    ∃ t o, exec .closeFrame (block 4 .inFrame 1 [(0, 0x41#8)]) = .next t ∧
      o ∈ t.results.drop (block 4 .inFrame 1 [(0, 0x41#8)]).results.length ∧
      o.result.frame? = some 1 :=
  ⟨inv_inFrame, _, ⟨.step (some 1) .noEvent, [0x41#8]⟩, rfl, List.mem_singleton.2 rfl, rfl⟩

theorem witness_PayloadAccumulatesInOrder : (block 4 .inFrame 0 []).fsm = .inFrame ∧ (block 4 .inFrame 0 []).wcur = 0 ∧
    [0xC0#8, 0xDB#8, 0xDC#8, 0x41#8].length ≤ (block 4 .inFrame 0 []).cfg.maxFrame := by decide

theorem witness_SrcFendEmitsItsPair : (encoding 1 3).enc = some ⟨1, 3⟩ ∧ 1 + 2 ≤ 3 := by decide
theorem witness_SrcFescEmitsItsPair : (encoding 0 2).enc = some ⟨0, 2⟩ ∧ 0 + 2 ≤ 2 := by decide
theorem witness_SrcPlainEmitsTheByte : (encoding 1 2).enc = some ⟨1, 2⟩ ∧ 1 < 2 ∧ 0xDC#8 ≠ 0xC0#8 ∧ 0xDC#8 ≠ 0xDB#8 := by
  decide
theorem witness_EmitStepsStopOutsideTheirRange : State.reset.enc = none ∧
    (encoding 1 2).enc = some ⟨1, 2⟩ ∧ 2 < 1 + 2 ∧
    (encoding 2 2).enc = some ⟨2, 2⟩ ∧ 2 ≤ 2 ∧ 0#8 ≠ 0xC0#8 ∧ 0#8 ≠ 0xDB#8 := by decide
theorem witness_EncCapacityIsCheckedFirst : [0xC0#8] ≠ [] ∧ 3 < [0xC0#8].length + escapeCount [0xC0#8] + 2 := by decide
theorem witness_EncWritesTheFrame : [0xC0#8] ≠ [] ∧ [0xC0#8].length + escapeCount [0xC0#8] + 2 ≤ 4 := by decide
theorem witness_EncOutputShape : [0xDB#8, 0x41#8] ≠ [] ∧
    [0xDB#8, 0x41#8].length + escapeCount [0xDB#8, 0x41#8] + 2 ≤ 5 := by decide

theorem witness_EncoderIsPure :
    (∃ t, exec (.encSize [0xC0#8]) State.reset = .next t) ∧ (∃ t, exec (.encSize [0xC0#8]) (encoding 1 2) = .next t) ∧
    (∃ t, exec (.enc [0xC0#8] 4) State.reset = .next t) ∧
    (∃ t, exec (.enc [0xC0#8] 4) (block 4 .inFrame 1 []) = .next t) ∧
    ∃ t, exec (.decRead 254) State.reset = .next t :=
  ⟨⟨_, rfl⟩, ⟨_, rfl⟩, ⟨_, rfl⟩, ⟨_, rfl⟩, ⟨_, rfl⟩⟩

theorem witness_DecoderIgnoresTheDestination :
    (∃ t, exec (.decByte 0xC0#8) State.reset = .next t) ∧ (∃ t, exec (.decBuf []) State.reset = .next t) ∧
    (∃ t, exec (.decRead 254) State.reset = .next t) ∧ ∃ t, exec .reset State.reset = .next t :=
  ⟨⟨_, rfl⟩, ⟨_, rfl⟩, ⟨_, rfl⟩, ⟨_, rfl⟩⟩

theorem witness_ConfigurationIsFixed : ∃ t, exec (.decByte 0xC0#8) State.reset = .next t := ⟨_, rfl⟩

theorem witness_NoStoreOutOfBounds :
    (∃ t, exec (.data 0x41#8) (block 4 .inFrame 3 []) = .next t) ∧ Instr.data 0x41#8 ≠ .reset ∧
    (block 4 .inFrame 3 []).cfg.maxFrame ≤ 4 ∧ ∃ t, exec (.enc [0xC0#8] 4) State.reset = .next t ∧ 4 ≤ 4 :=
  ⟨⟨_, rfl⟩, by decide, by decide, _, rfl, Nat.le_refl 4⟩

theorem witness_UnspecifiedBytesReachNoFrame : (block 4 .inFrame 1 [(0, 0x41#8)]).Inv ∧
    (∃ t, exec (.decByte 0xC0#8) (block 4 .inFrame 1 [(0, 0x41#8)]) = .next t) ∧
    ∃ t, exec (.decBuf [0xC0#8, 0x41#8, 0xC0#8]) (block 4 .inFrame 1 [(0, 0x41#8)]) = .next t :=
  ⟨inv_inFrame, ⟨_, rfl⟩, _, rfl⟩

theorem witness_ResetMeetsTheInvariant : Config.Legal ⟨1⟩ ∧ Config.Legal ⟨255⟩ := by decide

theorem witness_EveryInstructionKeepsTheInvariant : (block 4 .inFrame 1 [(0, 0x41#8)]).Inv ∧
    (∃ t, exec .closeFrame (block 4 .inFrame 1 [(0, 0x41#8)]) = .next t) ∧ (encoding 3 3).Inv ∧
    ∃ t, exec (.enc [0xC0#8] 4) (encoding 3 3) = .next t :=
  ⟨inv_inFrame, ⟨_, rfl⟩, inv_encoding, _, rfl⟩

theorem witness_EveryStepKeepsTheInvariant :
    State.BetweenCommands { block 4 .inFrame 1 [(0, 0x41#8)] with pending := [.decByte 0xC0#8] } ∧
    ∃ t, step { block 4 .inFrame 1 [(0, 0x41#8)] with pending := [.decByte 0xC0#8] } = .next t :=
  ⟨⟨⟨inv_inFrame.cfg_legal, inv_inFrame.wcur_le, inv_inFrame.idle_wcur, inv_inFrame.dbuf_wf, inv_inFrame.dbuf_bound,
    inv_inFrame.dbuf_written, inv_inFrame.dst_wf, inv_inFrame.enc_bound⟩, rfl⟩, _, rfl⟩

theorem witness_EncodedFrameDecodesToItsSource : [0xC0#8, 0xDB#8, 1#8, 2#8] ≠ [] ∧
    [0xC0#8, 0xDB#8, 1#8, 2#8].length + escapeCount [0xC0#8, 0xDB#8, 1#8, 2#8] + 2 ≤ 8 ∧
    [0xC0#8, 0xDB#8, 1#8, 2#8].length ≤ (block 4 .idle 0 []).cfg.maxFrame ∧ (block 4 .idle 0 []).fsm = .idle ∧
    (block 4 .inFrame 0 []).fsm = .inFrame ∧ (block 4 .inFrame 0 []).wcur = 0 := by decide

theorem witness_OversizeFrameIsAbortedOnce :
    (block 4 .idle 0 []).cfg.maxFrame < [1#8, 2#8, 0xC0#8, 4#8, 5#8].length := by decide

theorem witness_SharedDelimiterLosesTheSecondFrame : [0x0A#8, 0x0B#8] ≠ [] ∧
    [0x0A#8, 0x0B#8].length ≤ State.reset.cfg.maxFrame := by decide

end Sys2Proof.Tests
end

/-! SUPPORT. A step of the machine (00_scope.md R8, 41_decoder_commands.md R120), and what no instruction touches
(00_scope.md R6, R8): its configuration and the host's command stream. -/

namespace Sys2Proof.Machine

/-! ## The rows of the decoder, where they are selected -/

theorem whenSelected_eq_next {c : Bool} {p : State × StepResult} {t : State} :
    whenSelected c p = .next t ↔ c = true ∧ returnStep p = t := by
  cases c <;> simp [whenSelected]

section SelectedRows
variable {s : State}

theorem exec_openFrame (hf : s.fsm = .idle) : exec .openFrame s = .next (returnStep (armOpen s)) :=
  whenSelected_eq_next.2 ⟨decide_eq_true hf, rfl⟩

theorem exec_noise {v : Byte} (hf : s.fsm = .idle) (hv : v ≠ fend) :
    exec (.noise v) s = .next (returnStep (armNoise s)) :=
  whenSelected_eq_next.2 ⟨decide_eq_true ⟨hf, hv⟩, rfl⟩

theorem exec_escPrefix (hf : s.fsm = .inFrame) : exec .escPrefix s = .next (returnStep (armEscPrefix s)) :=
  whenSelected_eq_next.2 ⟨decide_eq_true hf, rfl⟩

theorem exec_closeFrame (hf : s.fsm = .inFrame) (hw : 0 < s.wcur) :
    exec .closeFrame s = .next (returnStep (armClose s)) :=
  whenSelected_eq_next.2 ⟨decide_eq_true ⟨hf, hw⟩, rfl⟩

theorem exec_restart (hf : s.fsm = .inFrame) (hw : s.wcur = 0) :
    exec .restart s = .next (returnStep (armRestart s)) :=
  whenSelected_eq_next.2 ⟨decide_eq_true ⟨hf, hw⟩, rfl⟩

theorem exec_data {v : Byte} (hf : s.fsm = .inFrame) (h1 : v ≠ fend) (h2 : v ≠ fesc)
    (hw : s.wcur < s.cfg.maxFrame) : exec (.data v) s = .next (returnStep (armData v s)) :=
  whenSelected_eq_next.2 ⟨decide_eq_true ⟨hf, h1, h2, hw⟩, rfl⟩

theorem exec_dataOvf {v : Byte} (hf : s.fsm = .inFrame) (h1 : v ≠ fend) (h2 : v ≠ fesc)
    (hw : s.cfg.maxFrame ≤ s.wcur) : exec (.dataOvf v) s = .next (returnStep (armDataOvf s)) :=
  whenSelected_eq_next.2 ⟨decide_eq_true ⟨hf, h1, h2, hw⟩, rfl⟩

theorem exec_escEnd (hf : s.fsm = .inFrameEscape) (hw : s.wcur < s.cfg.maxFrame) :
    exec .escEnd s = .next (returnStep (armEscEnd s)) :=
  whenSelected_eq_next.2 ⟨decide_eq_true ⟨hf, hw⟩, rfl⟩

theorem exec_escEsc (hf : s.fsm = .inFrameEscape) (hw : s.wcur < s.cfg.maxFrame) :
    exec .escEsc s = .next (returnStep (armEscEsc s)) :=
  whenSelected_eq_next.2 ⟨decide_eq_true ⟨hf, hw⟩, rfl⟩

theorem exec_escOvf {x : BitVec 1} (hf : s.fsm = .inFrameEscape) (hw : s.cfg.maxFrame ≤ s.wcur) :
    exec (.escOvf x) s = .next (returnStep (armEscOvf s)) :=
  whenSelected_eq_next.2 ⟨decide_eq_true ⟨hf, hw⟩, rfl⟩

theorem exec_badEsc {v : Byte} (hf : s.fsm = .inFrameEscape) (h1 : v ≠ tfend) (h2 : v ≠ tfesc) :
    exec (.badEsc v) s = .next (returnStep (armBadEsc s)) :=
  whenSelected_eq_next.2 ⟨decide_eq_true ⟨hf, h1, h2⟩, rfl⟩

end SelectedRows

/-! ## What a byte decodes to, by the decoder's state (30_encoding.md R66) -/

section DecodedRow
variable {s : State} (b : Byte)

theorem decodeByte_idle (hf : s.fsm = .idle) :
    decodeByte s.ctx b = if b = fend then .openFrame else .noise b := by
  simp only [decodeByte, State.ctx, classify, hf, apply_ite DecClass.toInstr]
  simp only [DecClass.toInstr]

theorem decodeByte_inFrame (hf : s.fsm = .inFrame) :
    decodeByte s.ctx b =
      if b = fesc then .escPrefix
      else if b = fend then (if 0 < s.wcur then .closeFrame else .restart)
      else if s.wcur < s.cfg.maxFrame then .data b
      else .dataOvf b := by
  simp only [decodeByte, State.ctx, classify, hf, apply_ite DecClass.toInstr]
  simp only [DecClass.toInstr]

theorem decodeByte_inFrameEscape (hf : s.fsm = .inFrameEscape) :
    decodeByte s.ctx b =
      if b = tfend ∧ s.wcur < s.cfg.maxFrame then .escEnd
      else if b = tfesc ∧ s.wcur < s.cfg.maxFrame then .escEsc
      else if b = tfend ∨ b = tfesc then .escOvf (escBit b)
      else .badEsc b := by
  simp only [decodeByte, State.ctx, classify, hf, apply_ite DecClass.toInstr]
  simp only [DecClass.toInstr]

end DecodedRow

/-- The instruction a byte decodes to does what the decode step does: in each branch of R90 (40_decoder_steps.md) the
row that is decoded is the arm that is taken, and it is selected there. -/
theorem exec_decodeByte (b : Byte) (s : State) : exec (decodeByte s.ctx b) s = .next (returnStep (dstep b s)) := by
  rcases dstep_cases b s with ⟨hf, hb, e⟩ | ⟨hf, hb, e⟩ | ⟨hf, hb, e⟩ | ⟨hf, hb, hw, e⟩ | ⟨hf, hb, hw, e⟩ |
    ⟨hf, h1, h2, hw, e⟩ | ⟨hf, h1, h2, hw, e⟩ | ⟨hf, hb, hw, e⟩ | ⟨hf, hb, hw, e⟩ | ⟨hf, hb, hw, e⟩ |
    ⟨hf, h1, h2, e⟩
  · rw [e, ← exec_openFrame hf, decodeByte_idle b hf, if_pos hb]
  · rw [e, ← exec_noise hf hb, decodeByte_idle b hf, if_neg hb]
  · rw [e, ← exec_escPrefix hf, decodeByte_inFrame b hf, if_pos hb]
  · rw [e, ← exec_closeFrame hf hw, decodeByte_inFrame b hf]
    simp [hb, hw]
  · rw [e, ← exec_restart hf hw, decodeByte_inFrame b hf]
    simp [hb, hw]
  · rw [e, ← exec_data hf h1 h2 hw, decodeByte_inFrame b hf]
    simp [h1, h2, hw]
  · rw [e, ← exec_dataOvf hf h1 h2 hw, decodeByte_inFrame b hf]
    simp [h1, h2, Nat.not_lt.2 hw]
  · rw [e, ← exec_escEnd hf hw, decodeByte_inFrameEscape b hf, if_pos ⟨hb, hw⟩]
  · rw [e, ← exec_escEsc hf hw, decodeByte_inFrameEscape b hf]
    simp [hb, hw]
  · rw [e, ← exec_escOvf (x := escBit b) hf hw, decodeByte_inFrameEscape b hf]
    simp [hb, Nat.not_lt.2 hw]
  · rw [e, ← exec_badEsc hf h1 h2, decodeByte_inFrameEscape b hf]
    simp [h1, h2]

/-- DEC_BYTE runs the instruction its byte decodes to (41_decoder_commands.md R120, 40_decoder_steps.md R90). -/
theorem exec_decByte_eq_exec_decodeByte (b : Byte) (s : State) :
    exec (.decByte b) s = exec (decodeByte s.ctx b) s :=
  (exec_decodeByte b s).symm

/-! ## The step -/

theorem step_of_pending_cons {s : State} {c : Command} {rest : List Command} (h : s.pending = c :: rest) :
    step s = exec c.toInstr { s with pending := rest } := by
  simp only [step, h]

theorem step_of_pending_nil {s : State} (h : s.pending = []) : step s = .next s := by
  simp only [step, h]

/-- Decoding a one-byte string gives the instruction of its byte. -/
theorem decode_singleton_eq_instr {c : Ctx} {b : Byte} {i : Instr} :
    decode c [b] = .instr i [] ↔ decodeByte c b = i := by
  simp [decode]

/-- Settles O17: the decoded row and the arm of the decode step agree, and taking the command off does not change the
context the byte is read in. -/
theorem stepRunsTheDecodedInstruction : Obligations.StepRunsTheDecodedInstruction := by
  refine ⟨fun s c rest h => step_of_pending_cons h, fun s b rest i h hd => ?_, fun s h => step_of_pending_nil h⟩
  have hi : decodeByte ({ s with pending := rest } : State).ctx b = i := decode_singleton_eq_instr.1 hd
  rw [step_of_pending_cons h, ← hi]
  exact exec_decByte_eq_exec_decodeByte b _

/-! ## What no instruction touches -/

/-- `MAX_FRAME`, the host's command stream and the results so far are as before. -/
structure SameHostSide (s t : State) : Prop where
  cfg : t.cfg = s.cfg
  pending : t.pending = s.pending
  results : t.results = s.results

theorem SameHostSide.refl (s : State) : SameHostSide s s := ⟨rfl, rfl, rfl⟩

theorem SameHostSide.trans {s t u : State} (h : SameHostSide s t) (k : SameHostSide t u) : SameHostSide s u :=
  ⟨k.cfg.trans h.cfg, k.pending.trans h.pending, k.results.trans h.results⟩

/-- `MAX_FRAME` and the host's command stream are as before, and at most one result comes after the earlier ones
(30_encoding.md R74). -/
structure AtMostOneResult (s t : State) : Prop where
  cfg : t.cfg = s.cfg
  pending : t.pending = s.pending
  results : ∃ more, t.results = s.results ++ more ∧ more.length ≤ 1

theorem SameHostSide.noResult {s t : State} (h : SameHostSide s t) : AtMostOneResult s t :=
  ⟨h.cfg, h.pending, [], by simp [h.results]⟩

theorem SameHostSide.report {s t : State} (h : SameHostSide s t) (r : Result) (content : List Byte) :
    AtMostOneResult s (t.report r content) :=
  ⟨h.cfg, h.pending, [⟨r, content⟩], by simp [h.results]⟩

/-! ### The decoder -/

theorem dstep_sameHostSide (b : Byte) (s : State) : SameHostSide s (dstep b s).1 := by
  obtain ⟨hcfg, -, -, -, hpending, hresults⟩ := dstep_frame b s
  exact ⟨hcfg, hpending, hresults⟩

theorem toIdle_sameHostSide (s : State) : SameHostSide s (toIdle s) := ⟨rfl, rfl, rfl⟩

theorem bufLoop_sameHostSide (bytes : List Byte) (pos : Nat) (events : List (Nat × Event)) (s : State) :
    SameHostSide s (bufLoop bytes pos events s).state :=
  bufLoop_keeps (fun b _ h => h.trans (dstep_sameHostSide b _)) bytes pos events s (.refl s)

/-- A row of the decoder whose arm keeps the host's side returns one result. -/
theorem atMostOneResult_of_whenSelected {c : Bool} {p : State × StepResult} {s t : State}
    (h : whenSelected c p = .next t) (hp : SameHostSide s p.1) : AtMostOneResult s t := by
  obtain ⟨-, rfl⟩ := whenSelected_eq_next.1 h
  exact hp.report _ _

theorem execDecRead_atMostOneResult {addr : Nat} {s t : State} (h : execDecRead addr s = .next t) :
    AtMostOneResult s t := by
  rcases execDecRead_cases addr s with ⟨-, e⟩ | ⟨-, e⟩ <;> rw [e] at h <;> cases h
  · exact (SameHostSide.refl s).noResult
  · exact (SameHostSide.refl s).report _ _

/-! ### The encoder -/

theorem emit_sameHostSide {v : Byte} {s t : State} (h : emit v s = .next t) : SameHostSide s t := by
  obtain ⟨e, -, -, rfl⟩ := emit_eq_next.1 h
  exact ⟨rfl, rfl, rfl⟩

theorem andThen_sameHostSide {o : Run} {f : State → Run} {s t : State} (ho : ∀ u, o = .next u → SameHostSide s u)
    (hf : ∀ u v, f u = .next v → SameHostSide u v) (h : andThen o f = .next t) : SameHostSide s t := by
  obtain ⟨u, hu, hv⟩ := andThen_eq_next.1 h
  exact (ho u hu).trans (hf u t hv)

theorem emitPair_sameHostSide {v w : Byte} {s t : State} (h : andThen (emit v s) (emit w) = .next t) :
    SameHostSide s t :=
  andThen_sameHostSide (fun _ => emit_sameHostSide) (fun _ _ => emit_sameHostSide) h

theorem execSrcPlain_sameHostSide {v : Byte} {s t : State} (h : execSrcPlain v s = .next t) : SameHostSide s t := by
  unfold execSrcPlain at h
  split at h
  · cases h
  · exact emit_sameHostSide h

theorem emitStep_sameHostSide {v : Byte} {s t : State} (h : emitStep v s = .next t) : SameHostSide s t := by
  unfold emitStep at h
  split at h
  · exact emitPair_sameHostSide h
  · exact emitPair_sameHostSide h
  · exact execSrcPlain_sameHostSide h

theorem emitAll_sameHostSide {src : List Byte} {s t : State} (h : emitAll src s = .next t) : SameHostSide s t := by
  induction src generalizing s t with
  | nil => cases h; exact .refl _
  | cons v rest ih => exact andThen_sameHostSide (fun _ => emitStep_sameHostSide) (fun _ _ => ih) h

theorem encReturn_atMostOneResult {s t u : State} (hs : SameHostSide s t) (h : encReturn t = .next u) :
    AtMostOneResult s u := by
  unfold encReturn at h
  split at h
  · cases h
  · cases h
    exact (hs.trans (u := { t with enc := none }) ⟨rfl, rfl, rfl⟩).report _ _

theorem encFrame_atMostOneResult {src : List Byte} {dstCap : Nat} {s t : State}
    (h : encFrame src dstCap s = .next t) : AtMostOneResult s t := by
  obtain ⟨u, hu, hret⟩ := andThen_eq_next.1 h
  obtain ⟨v, hv, hclose⟩ := andThen_eq_next.1 hu
  obtain ⟨w, hopen, himages⟩ := andThen_eq_next.1 hv
  have hstart : SameHostSide s { s with enc := some ⟨0, dstCap⟩ } := ⟨rfl, rfl, rfl⟩
  have hloop : SameHostSide s v := (hstart.trans (emit_sameHostSide hopen)).trans (emitAll_sameHostSide himages)
  exact encReturn_atMostOneResult (hloop.trans (emit_sameHostSide hclose)) hret

theorem execEnc_atMostOneResult {src : List Byte} {dstCap : Nat} {s t : State} (h : execEnc src dstCap s = .next t) :
    AtMostOneResult s t := by
  unfold execEnc at h
  split at h
  · cases h; exact (SameHostSide.refl s).report _ _
  · split at h
    · cases h; exact (SameHostSide.refl s).report _ _
    · exact encFrame_atMostOneResult h

/-! ### Every instruction -/

/-- No instruction touches `MAX_FRAME` or the command stream, and each returns at most one result. -/
theorem exec_atMostOneResult {i : Instr} {s t : State} (h : exec i s = .next t) : AtMostOneResult s t := by
  cases i with
  | openFrame | noise | escPrefix | closeFrame | restart | data | dataOvf | escEnd | escEsc | escOvf | badEsc =>
    exact atMostOneResult_of_whenSelected h ⟨rfl, rfl, rfl⟩
  | srcFend | srcFesc => exact (emitPair_sameHostSide h).noResult
  | srcPlain v => exact (execSrcPlain_sameHostSide h).noResult
  | decByte b => cases h; exact (dstep_sameHostSide b s).report _ _
  | decBuf bytes => cases h; exact ((toIdle_sameHostSide s).trans (bufLoop_sameHostSide bytes 0 [] _)).report _ _
  | decRead addr => exact execDecRead_atMostOneResult h
  | encSize src => cases h; exact (SameHostSide.refl s).report _ _
  | enc src dstCap => exact execEnc_atMostOneResult h
  | reset => cases h; exact SameHostSide.noResult ⟨rfl, rfl, rfl⟩

/-- Settles O43, arm by arm. -/
theorem configurationIsFixed : Obligations.ConfigurationIsFixed := by
  intro s t i h
  obtain ⟨hcfg, hpending, hresults⟩ := exec_atMostOneResult h
  exact ⟨hcfg, hpending, hresults⟩

end Sys2Proof.Machine

/-! SUPPORT. The invariant of the state (10_state.md R26): it holds at reset, every operation of the machine keeps it,
and no ENC is left in progress between commands (R33). -/

namespace Sys2Proof.Machine

/-! ## What the operations on the state keep -/

/-- The decoder in another of its states, with the cursor no further than it was; the buffer is kept (R32). -/
theorem State.Inv.moveDecoder {s : State} (hi : s.Inv) {fsm : Fsm} {wcur : Nat} (hw : wcur ≤ s.wcur)
    (hidle : fsm = .idle → wcur = 0) : State.Inv { s with fsm := fsm, wcur := wcur } :=
  { hi with
    wcur_le := hw.trans hi.wcur_le
    idle_wcur := hidle
    dbuf_written := fun k hk => hi.dbuf_written k (hk.trans_le hw) }

theorem State.Inv.toIdle {s : State} (hi : s.Inv) : (toIdle s).Inv := hi.moveDecoder (Nat.zero_le _) fun _ => rfl

/-- An append with room for it, into an open frame: the new byte is the cell just below the new cursor (R104). -/
theorem State.Inv.appendInFrame {s : State} (hi : s.Inv) (v : Byte) (hw : s.wcur < s.cfg.maxFrame) :
    State.Inv { append v s with fsm := .inFrame } where
  cfg_legal := hi.cfg_legal
  wcur_le := hw
  idle_wcur := nofun
  dbuf_wf := write_keeps_wf hi.dbuf_wf _ _
  dbuf_bound := by
    intro c hc
    rcases mem_write hc with rfl | hold
    · exact hw
    · exact hi.dbuf_bound c hold
  dbuf_written := by
    intro k hk
    change k < s.wcur + 1 at hk
    change (Memory.read? (Memory.write s.dbuf s.wcur v) k).isSome
    rw [read_write]
    split
    · rfl
    · exact hi.dbuf_written k (by omega)
  dst_wf := hi.dst_wf
  enc_bound := hi.enc_bound

theorem State.Inv.report {s : State} (hi : s.Inv) (r : Result) (content : List Byte) : (s.report r content).Inv :=
  { hi with }

/-- The host's commands are no part of the invariant. -/
theorem State.Inv.setPending {s : State} (hi : s.Inv) (cs : List Command) : State.Inv { s with pending := cs } :=
  { hi with }

/-- An ENC begun within its capacity, or none (R44). -/
theorem State.Inv.setEnc {s : State} (hi : s.Inv) {run : Option EncRun} (hrun : ∀ e ∈ run, e.j ≤ e.cap) :
    State.Inv { s with enc := run } :=
  { hi with enc_bound := hrun }

theorem State.Inv.reset {s : State} (hi : s.Inv) (n : Nat) :
    State.Inv { Machine.toIdle s with dbuf := [], epoch := n } :=
  { hi.toIdle with
    dbuf_wf := List.Pairwise.nil
    dbuf_bound := nofun
    dbuf_written := nofun }

/-! ## The decoder -/

section Arms
variable {s : State} (hi : s.Inv)
include hi

theorem armOpen_keeps_inv : (armOpen s).1.Inv := hi.moveDecoder (Nat.zero_le _) fun _ => rfl

theorem armNoise_keeps_inv : (armNoise s).1.Inv := hi

theorem armEscPrefix_keeps_inv : (armEscPrefix s).1.Inv := hi.moveDecoder (Nat.le_refl _) nofun

theorem armClose_keeps_inv : (armClose s).1.Inv := hi.toIdle

theorem armRestart_keeps_inv : (armRestart s).1.Inv := hi.moveDecoder (Nat.zero_le _) fun _ => rfl

/-- DATA leaves the decoder in the frame it is in (R96). -/
theorem armData_keeps_inv (v : Byte) (hf : s.fsm = .inFrame) (hw : s.wcur < s.cfg.maxFrame) :
    (armData v s).1.Inv := by
  have h : (armData v s).1 = { append v s with fsm := .inFrame } := by rw [← hf]; rfl
  rw [h]
  exact hi.appendInFrame v hw

theorem abort_keeps_inv (cause : Event) : (abort cause s).1.Inv := hi.toIdle

/-- The decode step keeps the invariant whatever arm it takes (40_decoder_steps.md R102). -/
theorem dstep_keeps_inv (b : Byte) : (dstep b s).1.Inv := by
  rcases dstep_cases b s with ⟨-, -, e⟩ | ⟨-, -, e⟩ | ⟨-, -, e⟩ | ⟨-, -, -, e⟩ | ⟨-, -, -, e⟩ | ⟨hf, -, -, hw, e⟩ |
    ⟨-, -, -, -, e⟩ | ⟨-, -, hw, e⟩ | ⟨-, -, hw, e⟩ | ⟨-, -, -, e⟩ | ⟨-, -, -, e⟩ <;> rw [e]
  · exact armOpen_keeps_inv hi
  · exact armNoise_keeps_inv hi
  · exact armEscPrefix_keeps_inv hi
  · exact armClose_keeps_inv hi
  · exact armRestart_keeps_inv hi
  · exact armData_keeps_inv hi b hf hw
  · exact abort_keeps_inv hi _
  · exact hi.appendInFrame fend hw
  · exact hi.appendInFrame fesc hw
  · exact abort_keeps_inv hi _
  · exact abort_keeps_inv hi _

theorem bufLoop_keeps_inv (bytes : List Byte) (pos : Nat) (events : List (Nat × Event)) :
    (bufLoop bytes pos events s).state.Inv :=
  bufLoop_keeps (P := State.Inv) (fun b _ h => dstep_keeps_inv h b) bytes pos events s hi

end Arms

/-- A row of the decoder keeps the invariant if its arm does where the row is selected. -/
theorem inv_of_whenSelected {c : Prop} [Decidable c] {p : State × StepResult} {t : State}
    (h : whenSelected (decide c) p = .next t) (hp : c → p.1.Inv) : t.Inv := by
  obtain ⟨hc, rfl⟩ := whenSelected_eq_next.1 h
  exact (hp (of_decide_eq_true hc)).report _ _

theorem execDecRead_keeps_inv {addr : Nat} {s t : State} (hi : s.Inv) (h : execDecRead addr s = .next t) : t.Inv := by
  rcases execDecRead_cases addr s with ⟨-, e⟩ | ⟨-, e⟩ <;> rw [e] at h <;> cases h
  · exact hi
  · exact hi.report _ _

/-! ## The encoder -/

theorem emit_keeps_inv {v : Byte} {s t : State} (hi : s.Inv) (h : emit v s = .next t) : t.Inv := by
  obtain ⟨e, -, hb, rfl⟩ := emit_eq_next.1 h
  exact { hi with
    dst_wf := write_keeps_wf hi.dst_wf _ _
    enc_bound := by rintro _ ⟨⟩; exact hb }

theorem emitPair_keeps_inv {v w : Byte} {s t : State} (hi : s.Inv) (h : andThen (emit v s) (emit w) = .next t) :
    t.Inv := by
  obtain ⟨u, hu, ht⟩ := andThen_eq_next.1 h
  exact emit_keeps_inv (emit_keeps_inv hi hu) ht

theorem execSrcPlain_keeps_inv {v : Byte} {s t : State} (hi : s.Inv) (h : execSrcPlain v s = .next t) : t.Inv := by
  unfold execSrcPlain at h
  split at h
  · cases h
  · exact emit_keeps_inv hi h

theorem emitStep_keeps_inv {v : Byte} {s t : State} (hi : s.Inv) (h : emitStep v s = .next t) : t.Inv := by
  unfold emitStep at h
  split at h
  · exact emitPair_keeps_inv hi h
  · exact emitPair_keeps_inv hi h
  · exact execSrcPlain_keeps_inv hi h

theorem emitAll_keeps_inv {src : List Byte} {s t : State} (hi : s.Inv) (h : emitAll src s = .next t) : t.Inv := by
  induction src generalizing s with
  | nil => cases h; exact hi
  | cons v rest ih =>
    obtain ⟨u, hu, ht⟩ := andThen_eq_next.1 h
    exact ih (emitStep_keeps_inv hi hu) ht

/-- Everything the return of an ENC can do: it shows what was written and leaves no ENC in progress. -/
theorem encReturn_eq_next {s t : State} :
    encReturn s = .next t ↔ ∃ e, s.enc = some e ∧
      t = { s with enc := none }.report (.enc e.j .noEvent) (Memory.firstBytes s.dst e.j) := by
  unfold encReturn
  cases h : s.enc with
  | none => simp
  | some e => simp [eq_comm]

/-- An ENC past its tests completes by way of the opening FEND, the images and the closing FEND (42_encoder.md R141). -/
theorem encFrame_eq_next {src : List Byte} {dstCap : Nat} {s t : State} :
    encFrame src dstCap s = .next t ↔ ∃ u v w, emit fend { s with enc := some ⟨0, dstCap⟩ } = .next u ∧
      emitAll src u = .next v ∧ emit fend v = .next w ∧ encReturn w = .next t := by
  simp only [encFrame, andThen_assoc, andThen_eq_next, exists_and_left]

/-- Everything ENC can do: it returns with nothing changed, or it writes the frame (42_encoder.md R141). -/
theorem execEnc_cases {src : List Byte} {dstCap : Nat} {s t : State} (h : execEnc src dstCap s = .next t) :
    (∃ error, t = s.report (.enc 0 error) []) ∨ encFrame src dstCap s = .next t := by
  unfold execEnc at h
  split at h
  · cases h; exact .inl ⟨_, rfl⟩
  · split at h
    · cases h; exact .inl ⟨_, rfl⟩
    · exact .inr h

theorem encFrame_keeps_inv {src : List Byte} {dstCap : Nat} {s t : State} (hi : s.Inv)
    (h : encFrame src dstCap s = .next t) : t.Inv := by
  obtain ⟨u, v, w, hopen, himages, hclose, hret⟩ := encFrame_eq_next.1 h
  obtain ⟨e, -, rfl⟩ := encReturn_eq_next.1 hret
  have hstart : State.Inv { s with enc := some ⟨0, dstCap⟩ } := hi.setEnc (by rintro _ ⟨⟩; exact Nat.zero_le _)
  have hw : w.Inv := emit_keeps_inv (emitAll_keeps_inv (emit_keeps_inv hstart hopen) himages) hclose
  have hdone : State.Inv { w with enc := none } := hw.setEnc nofun
  exact hdone.report _ _

theorem encFrame_leaves_no_enc {src : List Byte} {dstCap : Nat} {s t : State}
    (h : encFrame src dstCap s = .next t) : t.enc = none := by
  obtain ⟨_, _, _, -, -, -, hret⟩ := encFrame_eq_next.1 h
  obtain ⟨_, -, rfl⟩ := encReturn_eq_next.1 hret
  rfl

theorem execEnc_keeps_inv {src : List Byte} {dstCap : Nat} {s t : State} (hi : s.Inv)
    (h : execEnc src dstCap s = .next t) : t.Inv := by
  rcases execEnc_cases h with ⟨error, rfl⟩ | hframe
  · exact hi.report _ _
  · exact encFrame_keeps_inv hi hframe

/-! ## Every instruction and every step -/

/-- The invariant is kept arm by arm (40_decoder_steps.md R102). -/
theorem exec_keeps_inv {i : Instr} {s t : State} (hi : s.Inv) (h : exec i s = .next t) : t.Inv := by
  cases i with
  | openFrame => exact inv_of_whenSelected h fun _ => armOpen_keeps_inv hi
  | noise v => exact inv_of_whenSelected h fun _ => armNoise_keeps_inv hi
  | escPrefix => exact inv_of_whenSelected h fun _ => armEscPrefix_keeps_inv hi
  | closeFrame => exact inv_of_whenSelected h fun _ => armClose_keeps_inv hi
  | restart => exact inv_of_whenSelected h fun _ => armRestart_keeps_inv hi
  | data v => exact inv_of_whenSelected h fun ⟨hf, _, _, hw⟩ => armData_keeps_inv hi v hf hw
  | escEnd => exact inv_of_whenSelected h fun ⟨_, hw⟩ => hi.appendInFrame fend hw
  | escEsc => exact inv_of_whenSelected h fun ⟨_, hw⟩ => hi.appendInFrame fesc hw
  | dataOvf | escOvf | badEsc => exact inv_of_whenSelected h fun _ => abort_keeps_inv hi _
  | srcFend | srcFesc => exact emitPair_keeps_inv hi h
  | srcPlain v => exact execSrcPlain_keeps_inv hi h
  | decByte b => cases h; exact (dstep_keeps_inv hi b).report _ _
  | decBuf bytes => cases h; exact (bufLoop_keeps_inv hi.toIdle bytes 0 []).report _ _
  | decRead addr => exact execDecRead_keeps_inv hi h
  | encSize src => cases h; exact hi.report _ _
  | enc src dstCap => exact execEnc_keeps_inv hi h
  | reset => cases h; exact hi.reset _

/-- Settles O49. -/
theorem everyInstructionKeepsTheInvariant : Obligations.EveryInstructionKeepsTheInvariant :=
  fun _ _ _ => exec_keeps_inv

/-- A command begun with no ENC in progress leaves none (10_state.md R33). -/
theorem exec_command_leaves_no_enc {c : Command} {s t : State} (hs : s.enc = none)
    (h : exec c.toInstr s = .next t) : t.enc = none := by
  have hstep : ∀ (b : Byte) (u : State), u.enc = none → (dstep b u).1.enc = none := by
    intro b u hu
    obtain ⟨-, -, -, henc, -⟩ := dstep_frame b u
    rw [henc, hu]
  cases c with
  | decByte b => cases h; exact hstep b s hs
  | decBuf bytes => cases h; exact bufLoop_keeps (P := fun u => u.enc = none) hstep bytes 0 [] (toIdle s) hs
  | decRead addr => rcases execDecRead_cases addr s with ⟨-, e⟩ | ⟨-, e⟩ <;> cases e.symm.trans h <;> exact hs
  | encSize src => cases h; exact hs
  | enc src dstCap =>
    rcases execEnc_cases h with ⟨error, rfl⟩ | hframe
    · exact hs
    · exact encFrame_leaves_no_enc hframe
  | reset => cases h; exact hs

/-- Settles O50: a step runs one command, or nothing. -/
theorem everyStepKeepsTheInvariant : Obligations.EveryStepKeepsTheInvariant := by
  intro s t ⟨hi, hs⟩ h
  cases hp : s.pending with
  | nil =>
    rw [step_of_pending_nil hp] at h
    cases h
    exact ⟨hi, hs⟩
  | cons c rest =>
    rw [step_of_pending_cons hp] at h
    exact ⟨exec_keeps_inv (hi.setPending rest) h,
      exec_command_leaves_no_enc (s := { s with pending := rest }) hs h⟩

/-! ## The state after reset -/

theorem resetWith_inv {c : Config} (hc : c.Legal) : (State.resetWith c).Inv where
  cfg_legal := hc
  wcur_le := Nat.zero_le _
  idle_wcur := fun _ => rfl
  dbuf_wf := (reset_memories_wf c).1
  dbuf_bound := nofun
  dbuf_written := nofun
  dst_wf := (reset_memories_wf c).2
  enc_bound := nofun

theorem reference_legal : Config.reference.Legal := by decide

/-- Settles O48. -/
theorem resetMeetsTheInvariant : Obligations.ResetMeetsTheInvariant :=
  ⟨fun _ hc => ⟨resetWith_inv hc, rfl⟩, resetWith_inv reference_legal, rfl⟩

/-- Right after reset no cell is listed, so each reads as the free value of the first draw (10_state.md R34). -/
theorem resetWith_readDbuf (c : Config) (a : Nat) : (State.resetWith c).readDbuf a = Config.resetByte 0 a := rfl

/-- Settles O47. -/
theorem resetStateIsBetweenFrames : Obligations.ResetStateIsBetweenFrames :=
  ⟨fun c => ⟨rfl, rfl, rfl, rfl, rfl, resetWith_readDbuf c⟩, rfl⟩

end Sys2Proof.Machine

/-! SUPPORT. The contents of the decode buffer (10_state.md R25, R26 INV4, R34): a payload fed byte by byte arrives in
order, and a frame is reported from written cells alone. -/

namespace Sys2Proof.Machine

/-- The loop of DEC_BUF passes by a change of the state that the decode step passes by. -/
theorem bufLoop_commutes {g : State → State} (hg : ∀ b s, dstep b (g s) = (g (dstep b s).1, (dstep b s).2))
    (bytes : List Byte) (pos : Nat) (events : List (Nat × Event)) (s : State) :
    bufLoop bytes pos events (g s) =
      { bufLoop bytes pos events s with state := g (bufLoop bytes pos events s).state } := by
  induction bytes generalizing pos events s with
  | nil => rfl
  | cons b rest ih =>
    cases hf : (dstep b s).2.frame with
    | some len => rw [bufLoop_cons_some (len := len) (by rw [hg, hf]), bufLoop_cons_some hf, hg]
    | none => rw [bufLoop_cons_none (by rw [hg, hf]), bufLoop_cons_none hf, hg, ih]

/-! ## DEC_BYTE byte after byte -/

theorem returnStep_results_getLast (p : State × StepResult) :
    (returnStep p).results.getLast? = some ⟨.step p.2.frame p.2.event, p.1.frameContent p.2.frame⟩ := by
  simp [returnStep]

section FeedCons
variable {b : Byte} {s : State} (rest : List Byte) (fed : Nat)

theorem feedBytes_cons_some {len : Nat} (h : (dstep b s).2.frame = some len) :
    feedBytes (b :: rest) fed s = some (returnStep (dstep b s), some len, fed + 1) := by
  simp [feedBytes, exec, execDecByte, returnStep_results_getLast, h]

theorem feedBytes_cons_none (h : (dstep b s).2.frame = none) :
    feedBytes (b :: rest) fed s = feedBytes rest (fed + 1) (returnStep (dstep b s)) := by
  simp [feedBytes, exec, execDecByte, returnStep_results_getLast, h]

end FeedCons

/-- DEC_BYTE repeated is the loop of DEC_BUF but for the results (41_decoder_commands.md R129). -/
theorem feedBytes_eq_bufLoop (bytes : List Byte) (pos : Nat) (events : List (Nat × Event)) (s : State) :
    ∃ results, feedBytes bytes pos s =
      some ({ (bufLoop bytes pos events s).state with results := results }, (bufLoop bytes pos events s).frame,
        (bufLoop bytes pos events s).consumed) := by
  induction bytes generalizing pos events s with
  | nil => exact ⟨s.results, rfl⟩
  | cons b rest ih =>
    cases hf : (dstep b s).2.frame with
    | some len => exact ⟨_, by rw [feedBytes_cons_some rest pos hf, bufLoop_cons_some hf]; rfl⟩
    | none =>
      obtain ⟨results, h⟩ := ih (pos + 1) (noteEvent events pos (dstep b s).2.event) (returnStep (dstep b s))
      have hpass := bufLoop_commutes (g := fun u => { u with results := (returnStep (dstep b s)).results })
        (fun b u => dstep_setResults b u _) rest (pos + 1) (noteEvent events pos (dstep b s).2.event) (dstep b s).1
      refine ⟨results, ?_⟩
      rw [feedBytes_cons_none rest pos hf, h, bufLoop_cons_none hf]
      change bufLoop rest _ _ (returnStep (dstep b s)) = _ at hpass
      rw [hpass]

/-- Settles O31: the images append the payload at the cursor, which starts at 0. -/
theorem payloadAccumulatesInOrder : Obligations.PayloadAccumulatesInOrder := by
  intro s p hf hw hp
  obtain ⟨results, hfeed⟩ := feedBytes_eq_bufLoop (p.flatMap image) 0 [] s
  obtain ⟨d, happend, hread⟩ := appendAll_spec p s
  rw [bufLoop_images hf (by omega), happend] at hfeed
  simp only [hw, Nat.zero_add, Nat.zero_le, true_and, Nat.sub_zero] at hfeed hread
  refine ⟨_, hfeed, hf, rfl, fun k hk => ?_, fun a ha => ?_, rfl, rfl, rfl, rfl, rfl⟩
  · have hcell : Memory.read? d k = some p[k] := by rw [hread k, if_pos hk, List.getElem?_eq_getElem hk]
    exact readDbuf_of_read hcell
  · have hcell : Memory.read? d a = Memory.read? s.dbuf a := by rw [hread a, if_neg (Nat.not_lt.2 ha)]
    simp only [State.readDbuf, hcell]

/-! ## The unspecified bytes -/

/-- Every cell of the frame a result reports has been written, so none of it is an unspecified byte. -/
def FrameWritten (s : State) (frame : Option Nat) : Prop :=
  ∀ len ∈ frame, ∀ k < len, (Memory.read? s.dbuf k).isSome

/-- A written frame shows the same bytes under every draw. -/
theorem frameContent_setEpoch {s : State} {frame : Option Nat} (h : FrameWritten s frame) (n : Nat) :
    State.frameContent { s with epoch := n } frame = s.frameContent frame := by
  cases frame with
  | none => rfl
  | some len =>
    refine List.map_congr_left fun k hk => ?_
    obtain ⟨v, hv⟩ := Option.isSome_iff_exists.1 (h len rfl k (List.mem_range.1 hk))
    rw [readDbuf_of_read hv]
    exact readDbuf_of_read hv

/-- The frame that CLOSE reports lies below the cursor, where the invariant has every cell written (R26 INV4). -/
theorem dstep_frameWritten {s : State} (hi : s.Inv) (b : Byte) : FrameWritten (dstep b s).1 (dstep b s).2.frame := by
  intro len hlen
  obtain ⟨-, -, -, rfl, e⟩ := dstep_frame_some hlen
  rw [e]
  exact hi.dbuf_written

theorem bufLoop_frameWritten {s : State} (hi : s.Inv) (bytes : List Byte) (pos : Nat)
    (events : List (Nat × Event)) :
    FrameWritten (bufLoop bytes pos events s).state (bufLoop bytes pos events s).frame := by
  induction bytes generalizing pos events s with
  | nil => exact nofun
  | cons b rest ih =>
    cases hf : (dstep b s).2.frame with
    | some len => rw [bufLoop_cons_some hf, ← hf]; exact dstep_frameWritten hi b
    | none => rw [bufLoop_cons_none hf]; exact ih (dstep_keeps_inv hi b) _ _

theorem returnStep_setEpoch {p : State × StepResult} (h : FrameWritten p.1 p.2.frame) (n : Nat) :
    returnStep ({ p.1 with epoch := n }, p.2) = { returnStep p with epoch := n } := by
  simp only [returnStep, frameContent_setEpoch h]
  rfl

theorem returnBuf_setEpoch {r : BufRun} (h : FrameWritten r.state r.frame) (n : Nat) :
    returnBuf { r with state := { r.state with epoch := n } } = { returnBuf r with epoch := n } := by
  simp only [returnBuf, frameContent_setEpoch h]
  rfl

theorem execDecByte_setEpoch {s : State} (hi : s.Inv) (b : Byte) (n : Nat) :
    execDecByte b { s with epoch := n } = .next { returnStep (dstep b s) with epoch := n } := by
  rw [execDecByte, dstep_setEpoch, returnStep_setEpoch (dstep_frameWritten hi b)]

theorem execDecBuf_setEpoch {s : State} (hi : s.Inv) (bytes : List Byte) (n : Nat) :
    execDecBuf bytes { s with epoch := n } =
      .next { returnBuf (bufLoop bytes 0 [] (toIdle s)) with epoch := n } := by
  have hpass := bufLoop_commutes (g := fun u => { u with epoch := n }) (fun b u => dstep_setEpoch b u n) bytes 0 []
    (toIdle s)
  rw [← returnBuf_setEpoch (bufLoop_frameWritten hi.toIdle bytes 0 []), ← hpass]
  rfl

/-- Settles O45: what a feed command shows beside the buffer is a frame of written cells. -/
theorem unspecifiedBytesReachNoFrame : Obligations.UnspecifiedBytesReachNoFrame := by
  intro s t i n hi hfeed h
  rcases hfeed with ⟨b, rfl⟩ | ⟨bytes, rfl⟩ <;> cases h
  · exact execDecByte_setEpoch hi b n
  · exact execDecBuf_setEpoch hi bytes n

end Sys2Proof.Machine

/-! SUPPORT. The loads and the stores of the block (20_memory.md): what a DEC_BUF reads of its list (R46), that the
decoder neither reads nor writes DST (R56), and that no store is out of bounds (R44). -/

namespace Sys2Proof.Machine

/-! ## The bytes a DEC_BUF leaves unprocessed -/

/-- The loop of DEC_BUF reads no byte beyond those it counts as consumed (41_decoder_commands.md R121). -/
theorem bufLoop_take_consumed (bytes : List Byte) (pos : Nat) (events : List (Nat × Event)) (s : State) :
    ∃ k, (bufLoop bytes pos events s).consumed = pos + k ∧
      bufLoop (bytes.take k) pos events s = bufLoop bytes pos events s := by
  induction bytes generalizing pos events s with
  | nil => exact ⟨0, rfl, rfl⟩
  | cons b rest ih =>
    cases hf : (dstep b s).2.frame with
    | some len =>
      refine ⟨1, ?_, ?_⟩
      · rw [bufLoop_cons_some hf]
      · rw [List.take_succ_cons, bufLoop_cons_some hf, bufLoop_cons_some hf]
    | none =>
      obtain ⟨k, hk, htake⟩ := ih (pos + 1) (noteEvent events pos (dstep b s).2.event) (dstep b s).1
      refine ⟨k + 1, ?_, ?_⟩
      · rw [bufLoop_cons_none hf, hk]; omega
      · rw [List.take_succ_cons, bufLoop_cons_none hf, bufLoop_cons_none hf, htake]

/-- A list that completes a frame may be replaced, past the bytes consumed, by any other. -/
theorem bufLoop_take_append {bytes : List Byte} {events : List (Nat × Event)} {s : State} {len : Nat}
    (h : (bufLoop bytes 0 events s).frame = some len) (other : List Byte) :
    bufLoop (bytes.take (bufLoop bytes 0 events s).consumed ++ other) 0 events s = bufLoop bytes 0 events s := by
  obtain ⟨k, hk, htake⟩ := bufLoop_take_consumed bytes 0 events s
  rw [hk, Nat.zero_add, bufLoop_append_some (htake ▸ h), htake]

/-- A DEC_BUF ends with its one new result, which shows the frame and the count of the loop (R122). -/
theorem returnBuf_result {r : BufRun} {s : State} {frame : Option Nat} {consumed : Nat}
    {events : List (Nat × Event)} {content : List Byte} (hr : r.state.results = s.results)
    (h : (returnBuf r).results = s.results ++ [⟨.buf frame consumed events, content⟩]) :
    r.frame = frame ∧ r.consumed = consumed := by
  rw [returnBuf, report_results, hr, List.append_cancel_left_eq] at h
  cases h
  exact ⟨rfl, rfl⟩

/-- Settles O26: a frame ends the loop at the bytes consumed, and what follows them is not read. -/
theorem decBufIgnoresUnprocessedBytes : Obligations.DecBufIgnoresUnprocessedBytes := by
  intro s t bytes other len consumed events content h hres
  cases h
  have hkept := (bufLoop_sameHostSide bytes 0 [] (toIdle s)).results
  obtain ⟨hframe, rfl⟩ := returnBuf_result hkept hres
  change execDecBuf _ s = _
  rw [execDecBuf, bufLoop_take_append hframe]

/-! ## The decoder and DST -/

theorem returnStep_setDst (p : State × StepResult) (d : Memory) :
    returnStep ({ p.1 with dst := d }, p.2) = { returnStep p with dst := d } := rfl

theorem returnBuf_setDst (r : BufRun) (d : Memory) :
    returnBuf { r with state := { r.state with dst := d } } = { returnBuf r with dst := d } := rfl

theorem execDecByte_setDst (b : Byte) (s : State) (d : Memory) :
    execDecByte b { s with dst := d } = .next { returnStep (dstep b s) with dst := d } := by
  rw [execDecByte, dstep_setDst, returnStep_setDst]

theorem execDecBuf_setDst (bytes : List Byte) (s : State) (d : Memory) :
    execDecBuf bytes { s with dst := d } = .next { returnBuf (bufLoop bytes 0 [] (toIdle s)) with dst := d } := by
  have hpass := bufLoop_commutes (g := fun u => { u with dst := d }) (fun b u => dstep_setDst b u d) bytes 0 []
    (toIdle s)
  rw [← returnBuf_setDst, ← hpass]
  rfl

theorem execDecRead_setDst {addr : Nat} {s t : State} (d : Memory) (h : execDecRead addr s = .next t) :
    execDecRead addr { s with dst := d } = .next { t with dst := d } := by
  rcases execDecRead_cases addr s with ⟨ha, e⟩ | ⟨ha, e⟩ <;> cases e.symm.trans h
  · exact if_pos ha
  · exact if_neg (Nat.not_le.2 ha)

theorem execDecRead_dst {addr : Nat} {s t : State} (h : execDecRead addr s = .next t) : t.dst = s.dst := by
  rcases execDecRead_cases addr s with ⟨-, e⟩ | ⟨-, e⟩ <;> cases e.symm.trans h <;> rfl

theorem dstep_dst (b : Byte) (s : State) : (dstep b s).1.dst = s.dst := by
  obtain ⟨-, -, hdst, -⟩ := dstep_frame b s
  exact hdst

theorem bufLoop_dst (bytes : List Byte) (pos : Nat) (events : List (Nat × Event)) (s : State) :
    (bufLoop bytes pos events s).state.dst = s.dst :=
  bufLoop_keeps (P := fun u => u.dst = s.dst) (fun b u hu => (dstep_dst b u).trans hu) bytes pos events s rfl

/-- Settles O42: the decode step passes a change of DST by, hence so does every run of it. -/
theorem decoderIgnoresTheDestination : Obligations.DecoderIgnoresTheDestination := by
  intro s t i d hi h
  rcases hi with ⟨b, rfl⟩ | ⟨bytes, rfl⟩ | ⟨addr, rfl⟩ | rfl
  · cases h; exact ⟨dstep_dst b s, execDecByte_setDst b s d⟩
  · cases h; exact ⟨bufLoop_dst bytes 0 [] (toIdle s), execDecBuf_setDst bytes s d⟩
  · exact ⟨execDecRead_dst h, execDecRead_setDst d h⟩
  · cases h; exact ⟨rfl, rfl⟩

/-! ## The bounds of the decode buffer -/

/-- `MAX_FRAME` and every cell that the decode buffer does not have are as before (20_memory.md R44). -/
structure SameBeyondBuffer (s t : State) : Prop where
  cfg : t.cfg = s.cfg
  cells : ∀ a, s.cfg.maxFrame ≤ a → t.readDbuf a = s.readDbuf a

theorem SameBeyondBuffer.trans {s t u : State} (h : SameBeyondBuffer s t) (k : SameBeyondBuffer t u) :
    SameBeyondBuffer s u :=
  ⟨k.cfg.trans h.cfg, fun a ha => (k.cells a (h.cfg ▸ ha)).trans (h.cells a ha)⟩

theorem SameBeyondBuffer.report {s t : State} (h : SameBeyondBuffer s t) (r : Result) (content : List Byte) :
    SameBeyondBuffer s (t.report r content) :=
  ⟨h.cfg, h.cells⟩

theorem SameBeyondBuffer.of_noStore {s t : State} (hc : t.cfg = s.cfg) (he : t.epoch = s.epoch)
    (hd : t.dbuf = s.dbuf) : SameBeyondBuffer s t :=
  ⟨hc, fun a _ => readDbuf_eq_of_dbuf hd he a⟩

/-- A store at a cursor below `MAX_FRAME` is within the buffer (40_decoder_steps.md R104). -/
theorem SameBeyondBuffer.of_store {s t : State} {v : Byte} (hc : t.cfg = s.cfg) (he : t.epoch = s.epoch)
    (hw : s.wcur < s.cfg.maxFrame) (hd : t.dbuf = Memory.write s.dbuf s.wcur v) : SameBeyondBuffer s t := by
  refine ⟨hc, fun a ha => ?_⟩
  have hother : a ≠ s.wcur := by omega
  simp only [State.readDbuf, hd, he, read_write_other s.dbuf v hother]

/-- A decode step stores nothing, or one byte at the cursor where there is room for it (40_decoder_steps.md R104). -/
theorem dstep_store (b : Byte) (s : State) :
    (dstep b s).1.dbuf = s.dbuf ∨
      s.wcur < s.cfg.maxFrame ∧ ∃ v, (dstep b s).1.dbuf = Memory.write s.dbuf s.wcur v := by
  rcases dstep_cases b s with ⟨-, -, e⟩ | ⟨-, -, e⟩ | ⟨-, -, e⟩ | ⟨-, -, -, e⟩ | ⟨-, -, -, e⟩ | ⟨-, -, -, hw, e⟩ |
    ⟨-, -, -, -, e⟩ | ⟨-, -, hw, e⟩ | ⟨-, -, hw, e⟩ | ⟨-, -, -, e⟩ | ⟨-, -, -, e⟩ <;> rw [e]
  any_goals exact .inl rfl
  · exact .inr ⟨hw, b, rfl⟩
  · exact .inr ⟨hw, fend, rfl⟩
  · exact .inr ⟨hw, fesc, rfl⟩

theorem dstep_sameBeyondBuffer (b : Byte) (s : State) : SameBeyondBuffer s (dstep b s).1 := by
  obtain ⟨hc, he, -⟩ := dstep_frame b s
  rcases dstep_store b s with hd | ⟨hw, v, hd⟩
  · exact .of_noStore hc he hd
  · exact .of_store hc he hw hd

theorem bufLoop_sameBeyondBuffer (bytes : List Byte) (pos : Nat) (events : List (Nat × Event)) (s : State) :
    SameBeyondBuffer s (bufLoop bytes pos events s).state :=
  bufLoop_keeps (fun b _ h => h.trans (dstep_sameBeyondBuffer b _)) bytes pos events s (.of_noStore rfl rfl rfl)

/-- A row of the decoder stores within the buffer if its arm does where the row is selected. -/
theorem sameBeyondBuffer_of_whenSelected {c : Prop} [Decidable c] {p : State × StepResult} {s t : State}
    (h : whenSelected (decide c) p = .next t) (hp : c → SameBeyondBuffer s p.1) : SameBeyondBuffer s t := by
  obtain ⟨hc, rfl⟩ := whenSelected_eq_next.1 h
  exact (hp (of_decide_eq_true hc)).report _ _

theorem execDecRead_sameBeyondBuffer {addr : Nat} {s t : State} (h : execDecRead addr s = .next t) :
    SameBeyondBuffer s t := by
  rcases execDecRead_cases addr s with ⟨-, e⟩ | ⟨-, e⟩ <;> cases e.symm.trans h <;> exact .of_noStore rfl rfl rfl

theorem emit_sameBeyondBuffer {v : Byte} {s t : State} (h : emit v s = .next t) : SameBeyondBuffer s t := by
  obtain ⟨e, -, -, rfl⟩ := emit_eq_next.1 h
  exact .of_noStore rfl rfl rfl

theorem emitPair_sameBeyondBuffer {v w : Byte} {s t : State} (h : andThen (emit v s) (emit w) = .next t) :
    SameBeyondBuffer s t := by
  obtain ⟨u, hu, ht⟩ := andThen_eq_next.1 h
  exact (emit_sameBeyondBuffer hu).trans (emit_sameBeyondBuffer ht)

/-- Where SRC_PLAIN completes, it emits its byte (42_encoder.md R144). -/
theorem emit_of_execSrcPlain {v : Byte} {s t : State} (h : execSrcPlain v s = .next t) : emit v s = .next t := by
  unfold execSrcPlain at h
  split at h
  · cases h
  · exact h

/-! ## The bounds of DST -/

/-- The opening FEND, the loop of ENC and the closing FEND emit the wire form of the source (42_encoder.md R141). -/
theorem emits_wireFrame (src : List Byte) :
    Emits (wireFrame src) (fun s => andThen (andThen (emit fend s) (emitAll src)) (emit fend)) :=
  ((Emits.one fend).append (emitAll_emits src)).append (Emits.one fend)

/-- With the capacity there, ENC past its tests lays the wire form of the source over DST from index 0 and returns
(42_encoder.md R141). -/
theorem encFrame_writes_wireFrame {src : List Byte} {dstCap : Nat} (h : encodedSize src ≤ dstCap) (s : State) :
    ∃ d, encFrame src dstCap s =
        .next ({ s with dst := d, enc := none }.report (.enc (encodedSize src) .noEvent)
          (Memory.firstBytes d (encodedSize src))) ∧
      Overlaid s.dst d 0 (wireFrame src) := by
  have hlen : (wireFrame src).length = encodedSize src := by rw [wireFrame_length, encodedSize_eq]
  obtain ⟨d, hd, hover, -⟩ := emits_wireFrame src { s with enc := some ⟨0, dstCap⟩ } ⟨0, dstCap⟩ rfl
    (by simpa only [hlen, Nat.zero_add] using h)
  refine ⟨d, ?_, hover⟩
  simp only [hlen, Nat.zero_add] at hd
  simp only [encFrame, hd, andThen_next, encReturn]

/-- ENC returns with nothing changed, or writes its frame and has checked that it fits (42_encoder.md R146, R147). -/
theorem execEnc_fits (src : List Byte) (dstCap : Nat) (s : State) :
    (∃ error, execEnc src dstCap s = .next (s.report (.enc 0 error) [])) ∨
      (encodedSize src ≤ dstCap ∧ execEnc src dstCap s = encFrame src dstCap s) := by
  unfold execEnc
  split
  · exact .inl ⟨_, rfl⟩
  · split
    · exact .inl ⟨_, rfl⟩
    · next hcap => exact .inr ⟨Nat.not_lt.1 hcap, rfl⟩

/-- What an ENC leaves alone: the decode buffer, and DST at and beyond the capacity (20_memory.md R44). -/
theorem execEnc_frame {src : List Byte} {dstCap : Nat} {s t : State} (h : execEnc src dstCap s = .next t) :
    SameBeyondBuffer s t ∧ ∀ a, dstCap ≤ a → Memory.read? t.dst a = Memory.read? s.dst a := by
  rcases execEnc_fits src dstCap s with ⟨error, e⟩ | ⟨hfit, e⟩
  · cases e.symm.trans h
    exact ⟨.of_noStore rfl rfl rfl, fun _ _ => rfl⟩
  · obtain ⟨d, hd, hover⟩ := encFrame_writes_wireFrame hfit s
    cases (e.trans hd).symm.trans h
    refine ⟨.of_noStore rfl rfl rfl, fun a ha => (hover a).trans (if_neg ?_)⟩
    rw [wireFrame_length, ← encodedSize_eq]
    omega

/-! ## Every instruction -/

/-- No instruction but RESET stores beyond the decode buffer. -/
theorem exec_sameBeyondBuffer {i : Instr} {s t : State} (hi : i ≠ .reset) (h : exec i s = .next t) :
    SameBeyondBuffer s t := by
  cases i with
  | data v => exact sameBeyondBuffer_of_whenSelected h fun ⟨_, _, _, hw⟩ => .of_store rfl rfl hw rfl
  | escEnd | escEsc => exact sameBeyondBuffer_of_whenSelected h fun ⟨_, hw⟩ => .of_store rfl rfl hw rfl
  | openFrame | noise | escPrefix | closeFrame | restart | dataOvf | escOvf | badEsc =>
    exact sameBeyondBuffer_of_whenSelected h fun _ => .of_noStore rfl rfl rfl
  | srcFend | srcFesc => exact emitPair_sameBeyondBuffer h
  | srcPlain v => exact emit_sameBeyondBuffer (emit_of_execSrcPlain h)
  | decByte b => cases h; exact (dstep_sameBeyondBuffer b s).report _ _
  | decBuf bytes =>
    cases h
    have hentry : SameBeyondBuffer s (toIdle s) := .of_noStore rfl rfl rfl
    exact (hentry.trans (bufLoop_sameBeyondBuffer bytes 0 [] (toIdle s))).report _ _
  | decRead addr => exact execDecRead_sameBeyondBuffer h
  | encSize src => cases h; exact .of_noStore rfl rfl rfl
  | enc src dstCap => exact (execEnc_frame h).1
  | reset => exact absurd rfl hi

/-- Settles O44: an append is made at a cursor with room (R104), and ENC checks the capacity before it writes (R147). -/
theorem noStoreOutOfBounds : Obligations.NoStoreOutOfBounds := by
  refine ⟨fun s t i a hi h => (exec_sameBeyondBuffer hi h).cells a, fun s t src dstCap a h ha => ?_⟩
  obtain ⟨-, hdst⟩ := execEnc_frame h
  exact hdst a ha

end Sys2Proof.Machine

/-! SUPPORT. The encoding (30_encoding.md R66, R75, R76): decoding and encoding are inverse to each other in every
context, the opcode table selects what the decoder reads, and a list of FENDs opens one frame (R69). -/

namespace Sys2Proof.Machine

/-! ## Where a row applies -/

@[simp] theorem holds_always {w m : Nat} : RowCond.always.holds w m = true := rfl
@[simp] theorem holds_buffered {w m : Nat} : RowCond.buffered.holds w m = true ↔ 0 < w := decide_eq_true_iff
@[simp] theorem holds_unbuffered {w m : Nat} : RowCond.unbuffered.holds w m = true ↔ w = 0 := decide_eq_true_iff
@[simp] theorem holds_room {w m : Nat} : RowCond.room.holds w m = true ↔ w < m := decide_eq_true_iff
@[simp] theorem holds_full {w m : Nat} : RowCond.full.holds w m = true ↔ w = m := decide_eq_true_iff

theorem covers_dec_iff {f : Fsm} {k : RowCond} {c : Ctx} :
    (RowCtx.dec f).covers k c = true ↔ ∃ w m, c = .dec f w m ∧ k.holds w m = true := by
  cases c with
  | dec f' w m => simp [RowCtx.covers, and_assoc, eq_comm (a := f)]
  | enc => simp [RowCtx.covers]

theorem covers_enc_iff {k : RowCond} {c : Ctx} : RowCtx.enc.covers k c = true ↔ c = .enc := by
  cases c <;> simp [RowCtx.covers]

/-! ## The operands of a catch-all row -/

theorem wellFormed_noise {v : Byte} : (Instr.noise v).wellFormed = true ↔ v ≠ fend := bne_iff_ne

/-- The same two bytes are left out of DATA_OVF and SRC_PLAIN. -/
theorem wellFormed_data {v : Byte} : (Instr.data v).wellFormed = true ↔ v ≠ fend ∧ v ≠ fesc := by
  simp [Instr.wellFormed]

theorem wellFormed_badEsc {v : Byte} : (Instr.badEsc v).wellFormed = true ↔ v ≠ tfend ∧ v ≠ tfesc := by
  simp [Instr.wellFormed]

/-! ## The byte `1101110x` -/

theorem escByte_eq_tfend_or_tfesc (x : BitVec 1) : escByte x = tfend ∨ escByte x = tfesc := by decide +revert

theorem escBit_escByte (x : BitVec 1) : escBit (escByte x) = x := by decide +revert

theorem escByte_escBit {b : Byte} (h : b = tfend ∨ b = tfesc) : escByte (escBit b) = b := by
  rcases h with rfl | rfl <;> decide

/-- The mask of ESC_OVF leaves bit 0 open. -/
theorem and_mask_eq_tfend (b : Byte) : b &&& 0xFE#8 = 0xDC#8 ↔ b = tfend ∨ b = tfesc := by decide +revert

/-! ## What a byte decodes to, in any context -/

/-- A state in which the decoder reads its next byte in a given context. -/
def stateIn (f : Fsm) (w m : Nat) : State := { State.resetWith ⟨m⟩ with fsm := f, wcur := w }

theorem decodeByte_dec_idle (w m : Nat) (b : Byte) :
    decodeByte (.dec .idle w m) b = if b = fend then .openFrame else .noise b :=
  decodeByte_idle (s := stateIn .idle w m) b rfl

theorem decodeByte_dec_inFrame (w m : Nat) (b : Byte) :
    decodeByte (.dec .inFrame w m) b =
      if b = fesc then .escPrefix
      else if b = fend then (if 0 < w then .closeFrame else .restart)
      else if w < m then .data b
      else .dataOvf b :=
  decodeByte_inFrame (s := stateIn .inFrame w m) b rfl

theorem decodeByte_dec_inFrameEscape (w m : Nat) (b : Byte) :
    decodeByte (.dec .inFrameEscape w m) b =
      if b = tfend ∧ w < m then .escEnd
      else if b = tfesc ∧ w < m then .escEsc
      else if b = tfend ∨ b = tfesc then .escOvf (escBit b)
      else .badEsc b :=
  decodeByte_inFrameEscape (s := stateIn .inFrameEscape w m) b rfl

theorem decodeByte_enc (b : Byte) :
    decodeByte .enc b = if b = fend then .srcFend else if b = fesc then .srcFesc else .srcPlain b := by
  simp only [decodeByte, classifySrc, apply_ite EncClass.toInstr]
  simp only [EncClass.toInstr]

/-! ## Decode and encode -/

/-- What the table asks of the reading of byte `b` in context `c`: a well-formed instruction whose row applies there
and whose wire form is the byte. -/
structure IsReading (c : Ctx) (b : Byte) (i : Instr) : Prop where
  encodes : encode i = some [b]
  wellFormed : i.wellFormed = true
  applies : i.appliesIn c = true

/-- A byte has no reading but the one the decoder gives it. -/
theorem IsReading.decodeByte_eq {c : Ctx} {b : Byte} {i : Instr} (h : IsReading c b i) : decodeByte c b = i := by
  obtain ⟨he, hv, ha⟩ := h
  cases i with
  | openFrame =>
    cases he
    obtain ⟨w, m, rfl, -⟩ := covers_dec_iff.1 ha
    exact (decodeByte_dec_idle w m _).trans (if_pos rfl)
  | noise v =>
    cases he
    obtain ⟨w, m, rfl, -⟩ := covers_dec_iff.1 ha
    exact (decodeByte_dec_idle w m _).trans (if_neg (wellFormed_noise.1 hv))
  | escPrefix =>
    cases he
    obtain ⟨w, m, rfl, -⟩ := covers_dec_iff.1 ha
    exact (decodeByte_dec_inFrame w m _).trans (if_pos rfl)
  | closeFrame =>
    cases he
    obtain ⟨w, m, rfl, hw⟩ := covers_dec_iff.1 ha
    simp [decodeByte_dec_inFrame, holds_buffered.1 hw]
  | restart =>
    cases he
    obtain ⟨w, m, rfl, hw⟩ := covers_dec_iff.1 ha
    simp [decodeByte_dec_inFrame, holds_unbuffered.1 hw]
  | data v =>
    cases he
    obtain ⟨w, m, rfl, hw⟩ := covers_dec_iff.1 ha
    simp [decodeByte_dec_inFrame, wellFormed_data.1 hv, holds_room.1 hw]
  | dataOvf v =>
    cases he
    obtain ⟨w, m, rfl, hw⟩ := covers_dec_iff.1 ha
    simp [decodeByte_dec_inFrame, wellFormed_data.1 hv, holds_full.1 hw]
  | escEnd | escEsc =>
    cases he
    obtain ⟨w, m, rfl, hw⟩ := covers_dec_iff.1 ha
    simp [decodeByte_dec_inFrameEscape, holds_room.1 hw]
  | escOvf x =>
    cases he
    obtain ⟨w, m, rfl, hw⟩ := covers_dec_iff.1 ha
    simp [decodeByte_dec_inFrameEscape, holds_full.1 hw, escByte_eq_tfend_or_tfesc, escBit_escByte]
  | badEsc v =>
    cases he
    obtain ⟨w, m, rfl, -⟩ := covers_dec_iff.1 ha
    simp [decodeByte_dec_inFrameEscape, wellFormed_badEsc.1 hv]
  | srcFend => cases he; cases covers_enc_iff.1 ha; exact (decodeByte_enc _).trans (if_pos rfl)
  | srcFesc => cases he; cases covers_enc_iff.1 ha; simp [decodeByte_enc]
  | srcPlain v => cases he; cases covers_enc_iff.1 ha; simp [decodeByte_enc, wellFormed_data.1 hv]
  | decByte | decBuf | decRead | encSize | enc | reset => cases he

/-- The decoder gives every byte a reading, whatever the context (30_encoding.md R70). -/
theorem decodeByte_isReading {c : Ctx} (hc : ∀ f w m, c = .dec f w m → w ≤ m) (b : Byte) :
    IsReading c b (decodeByte c b) := by
  cases c with
  | enc =>
    rw [decodeByte_enc]
    split_ifs with h1 h2
    · exact ⟨h1 ▸ rfl, rfl, rfl⟩
    · exact ⟨h2 ▸ rfl, rfl, rfl⟩
    · exact ⟨rfl, wellFormed_data.2 ⟨h1, h2⟩, rfl⟩
  | dec f w m =>
    have full : ¬ w < m → w = m := fun h => Nat.le_antisymm (hc f w m rfl) (Nat.not_lt.1 h)
    cases f with
    | idle =>
      rw [decodeByte_dec_idle]
      split_ifs with hb
      · exact ⟨hb ▸ rfl, rfl, rfl⟩
      · exact ⟨rfl, wellFormed_noise.2 hb, rfl⟩
    | inFrame =>
      rw [decodeByte_dec_inFrame]
      split_ifs with h1 h2 hw hw
      · exact ⟨h1 ▸ rfl, rfl, rfl⟩
      · exact ⟨h2 ▸ rfl, rfl, (holds_buffered (m := m)).2 hw⟩
      · exact ⟨h2 ▸ rfl, rfl, (holds_unbuffered (m := m)).2 (Nat.eq_zero_of_not_pos hw)⟩
      · exact ⟨rfl, wellFormed_data.2 ⟨h2, h1⟩, holds_room.2 hw⟩
      · exact ⟨rfl, wellFormed_data.2 ⟨h2, h1⟩, holds_full.2 (full hw)⟩
    | inFrameEscape =>
      rw [decodeByte_dec_inFrameEscape]
      split_ifs with h1 h2 hb
      · exact ⟨h1.1 ▸ rfl, rfl, holds_room.2 h1.2⟩
      · exact ⟨h2.1 ▸ rfl, rfl, holds_room.2 h2.2⟩
      · have hw : ¬ w < m := fun hw => hb.elim (fun h => h1 ⟨h, hw⟩) (fun h => h2 ⟨h, hw⟩)
        exact ⟨by rw [encode, escByte_escBit hb], rfl, holds_full.2 (full hw)⟩
      · exact ⟨rfl, wellFormed_badEsc.2 (not_or.1 hb), rfl⟩

/-- Every row of the table applies somewhere: at a cursor of 0 with and without room, or with a byte buffered. -/
theorem exists_appliesIn_of_not_command {i : Instr} (h : i.isCommand = false) : ∃ c, i.appliesIn c = true := by
  cases i with
  | openFrame | noise => exact ⟨.dec .idle 0 1, rfl⟩
  | escPrefix | restart | data => exact ⟨.dec .inFrame 0 1, rfl⟩
  | closeFrame | dataOvf => exact ⟨.dec .inFrame 1 1, rfl⟩
  | escEnd | escEsc | badEsc => exact ⟨.dec .inFrameEscape 0 1, rfl⟩
  | escOvf => exact ⟨.dec .inFrameEscape 1 1, rfl⟩
  | srcFend | srcFesc | srcPlain => exact ⟨.enc, rfl⟩
  | decByte | decBuf | decRead | encSize | enc | reset => cases h

/-- The wire form of an instruction is one byte, or it has none and is a command (30_encoding.md R62, R77). -/
theorem oneByte : ∀ i : Instr, Laws.OneByte.Statement i
  | .openFrame => Laws.OneByte.openFrame
  | .noise v => Laws.OneByte.noise v
  | .escPrefix => Laws.OneByte.escPrefix
  | .closeFrame => Laws.OneByte.closeFrame
  | .restart => Laws.OneByte.restart
  | .data v => Laws.OneByte.data v
  | .dataOvf v => Laws.OneByte.dataOvf v
  | .escEnd => Laws.OneByte.escEnd
  | .escEsc => Laws.OneByte.escEsc
  | .escOvf v => Laws.OneByte.escOvf v
  | .badEsc v => Laws.OneByte.badEsc v
  | .srcFend => Laws.OneByte.srcFend
  | .srcFesc => Laws.OneByte.srcFesc
  | .srcPlain v => Laws.OneByte.srcPlain v
  | .decByte v => Laws.OneByte.decByte v
  | .decBuf v => Laws.OneByte.decBuf v
  | .decRead v => Laws.OneByte.decRead v
  | .encSize v => Laws.OneByte.encSize v
  | .enc src dstCap => Laws.OneByte.enc src dstCap
  | .reset => Laws.OneByte.reset

theorem encode_eq_singleton {i : Instr} {w : List Byte} (h : encode i = some w) : ∃ b, w = [b] := by
  rcases oneByte i with ⟨b, hb, -⟩ | ⟨hn, -⟩
  · exact ⟨b, Option.some.inj (h.symm.trans hb)⟩
  · cases hn.symm.trans h

theorem exists_encode_of_not_command {i : Instr} (h : i.isCommand = false) : ∃ w, encode i = some w := by
  rcases oneByte i with ⟨b, hb, -⟩ | ⟨-, hc⟩
  · exact ⟨[b], hb⟩
  · cases h.symm.trans hc

/-- Settles O13: the wire form is one byte, and the instruction is that byte's only reading. -/
theorem decodeInvertsEncode : Obligations.DecodeInvertsEncode := by
  refine ⟨fun c i w rest hv ha he => ?_, fun i h =>
    ⟨exists_encode_of_not_command h, exists_appliesIn_of_not_command h⟩⟩
  obtain ⟨b, rfl⟩ := encode_eq_singleton he
  have hr : IsReading c b i := ⟨he, hv, ha⟩
  rw [List.singleton_append, decode, hr.decodeByte_eq]

/-- Settles O14: the instruction is the one the decoder reads. -/
theorem encodeInvertsDecode : Obligations.EncodeInvertsDecode := by
  intro c b rest hc
  obtain ⟨he, hv, ha⟩ := decodeByte_isReading hc b
  exact ⟨decodeByte c b, rfl, he, hv, ha⟩

/-! ## The opcode table as data (30_encoding.md R75) -/

/-- A row that fixes all eight bits selects its one byte. -/
@[simp] theorem selects_exact {x : RowCtx} {p b : Byte} {k : RowCond} {f : Byte → Instr} {c : Ctx} :
    (Row.mk x p 0xFF#8 k f).selects c b = true ↔ b = p ∧ x.covers k c = true := by
  have hb : b &&& 0xFF#8 = b := BitVec.and_allOnes
  rw [Row.selects, hb, Bool.and_eq_true, beq_iff_eq]

/-- A catch-all row selects every byte. -/
@[simp] theorem selects_any {x : RowCtx} {b : Byte} {k : RowCond} {f : Byte → Instr} {c : Ctx} :
    (Row.mk x 0x00#8 0x00#8 k f).selects c b = true ↔ x.covers k c = true := by
  simp [Row.selects]

/-- The row of ESC_OVF selects both bytes of the pattern `1101110x`. -/
@[simp] theorem selects_pair {x : RowCtx} {b : Byte} {k : RowCond} {f : Byte → Instr} {c : Ctx} :
    (Row.mk x 0xDC#8 0xFE#8 k f).selects c b = true ↔ (b = tfend ∨ b = tfesc) ∧ x.covers k c = true := by
  rw [Row.selects, Bool.and_eq_true, beq_iff_eq, and_mask_eq_tfend]

/-- The instruction of the first of some rows that selects the byte. -/
def firstSelected (rows : List Row) (c : Ctx) (b : Byte) : Option Instr :=
  (rows.find? (fun r => r.selects c b)).map (fun r => r.build b)

theorem decodeByTable_eq_firstSelected (c : Ctx) (b : Byte) : decodeByTable c b = firstSelected opcodeTable c b := rfl

@[simp] theorem firstSelected_nil (c : Ctx) (b : Byte) : firstSelected [] c b = none := rfl

@[simp] theorem firstSelected_cons (r : Row) (rows : List Row) (c : Ctx) (b : Byte) :
    firstSelected (r :: rows) c b = if r.selects c b = true then some (r.build b) else firstSelected rows c b := by
  cases h : r.selects c b <;> simp [firstSelected, h]

theorem decodeByTable_dec_idle (w m : Nat) (b : Byte) :
    decodeByTable (.dec .idle w m) b = if b = fend then some .openFrame else some (.noise b) := by
  simp [decodeByTable_eq_firstSelected, opcodeTable, rowsIdle, RowCtx.covers]

theorem decodeByTable_dec_inFrame (w m : Nat) (b : Byte) :
    decodeByTable (.dec .inFrame w m) b =
      if b = fesc then some .escPrefix
      else if b = fend ∧ 0 < w then some .closeFrame
      else if b = fend ∧ w = 0 then some .restart
      else if w < m then some (.data b)
      else if w = m then some (.dataOvf b)
      else none := by
  simp [decodeByTable_eq_firstSelected, opcodeTable, rowsIdle, rowsInFrame, rowsInFrameEscape, rowsEnc, RowCtx.covers]

theorem decodeByTable_dec_inFrameEscape (w m : Nat) (b : Byte) :
    decodeByTable (.dec .inFrameEscape w m) b =
      if b = tfend ∧ w < m then some .escEnd
      else if b = tfesc ∧ w < m then some .escEsc
      else if (b = tfend ∨ b = tfesc) ∧ w = m then some (.escOvf (escBit b))
      else some (.badEsc b) := by
  simp [decodeByTable_eq_firstSelected, opcodeTable, rowsIdle, rowsInFrame, rowsInFrameEscape, rowsEnc, RowCtx.covers]

theorem decodeByTable_enc (b : Byte) :
    decodeByTable .enc b =
      if b = fend then some .srcFend else if b = fesc then some .srcFesc else some (.srcPlain b) := by
  simp [decodeByTable_eq_firstSelected, opcodeTable, rowsIdle, rowsInFrame, rowsInFrameEscape, rowsEnc, RowCtx.covers]

/-- Settles O15: what the table selects in a context is compared with what the decoder reads there; within `MAX_FRAME`
the cursor has room or is at the end, so the conditions `room` and `full` leave no cursor out. -/
theorem tableSelectsTheDecodedRow : Obligations.TableSelectsTheDecodedRow := by
  intro c b hc
  cases c with
  | enc => simp only [decodeByTable_enc, decodeByte_enc, apply_ite some]
  | dec f w m =>
    have hw : w ≤ m := hc f w m rfl
    cases f with
    | idle => simp only [decodeByTable_dec_idle, decodeByte_dec_idle, apply_ite some]
    | inFrame =>
      rw [decodeByTable_dec_inFrame, decodeByte_dec_inFrame]
      by_cases hb : b = fend
      · rcases Nat.eq_zero_or_pos w with h0 | h0 <;> simp [hb, h0]
      · rcases Nat.lt_or_eq_of_le hw with h | h <;> simp [hb, h, apply_ite some]
    | inFrameEscape =>
      rw [decodeByTable_dec_inFrameEscape, decodeByte_dec_inFrameEscape]
      rcases Nat.lt_or_eq_of_le hw with h | h
      · have hne : w ≠ m := Nat.ne_of_lt h
        by_cases h1 : b = tfend
        · simp [h1, h]
        · by_cases h2 : b = tfesc <;> simp [h1, h2, h]
      · simp [h, apply_ite some]

/-- Settles O16, by running the decoder on each byte. -/
theorem sampleBytesDecode : Obligations.SampleBytesDecode := by
  unfold Obligations.SampleBytesDecode
  decide

/-! ## The model's interface (log entry 11) -/

/-- Of `MAX_FRAME`, a byte's row depends only on whether there is room at the cursor. -/
theorem decodeByte_dec_congr {w m m' : Nat} (h : w < m ↔ w < m') (f : Fsm) (b : Byte) :
    decodeByte (.dec f w m) b = decodeByte (.dec f w m') b := by
  cases f with
  | idle => rw [decodeByte_dec_idle, decodeByte_dec_idle]
  | inFrame => simp only [decodeByte_dec_inFrame, h]
  | inFrameEscape => simp only [decodeByte_dec_inFrameEscape, h]

/-- What `decodeTableWord` reads is the byte in its bare context with the reference `MAX_FRAME`. -/
theorem decodeTableWord_eq_some {w : Nat} {i : Instr} (h : decodeTableWord 8 w = some i) :
    decodeByte (.dec (bareFsm (BitVec.ofNat 8 w)) 0 Config.reference.maxFrame) (BitVec.ofNat 8 w) = i := by
  simp only [decodeTableWord] at h
  split at h
  · exact Option.some.inj h
  · cases h

/-- The step after `withFetchWord` is the DEC_BYTE it placed. -/
theorem step_withFetchWord (s : State) (w : Nat) :
    step (s.withFetchWord 8 w) =
      exec (.decByte (BitVec.ofNat 8 w)) { s with fsm := bareFsm (BitVec.ofNat 8 w), wcur := 0 } :=
  step_of_pending_cons (s := s.withFetchWord 8 w) rfl

/-- Settles O18: at a cursor of 0 every legal `MAX_FRAME` has room, so the row is the same as with the reference one. -/
theorem fetchedWordRunsNext : Obligations.FetchedWordRunsNext := by
  intro s w i hcfg hw
  have room : 0 < s.cfg.maxFrame ↔ 0 < Config.reference.maxFrame := iff_of_true hcfg reference_legal
  have hi : decodeByte (.dec (bareFsm (BitVec.ofNat 8 w)) 0 s.cfg.maxFrame) (BitVec.ofNat 8 w) = i :=
    (decodeByte_dec_congr room _ _).trans (decodeTableWord_eq_some hw)
  refine ⟨?_, _, step_withFetchWord s w⟩
  rw [step_withFetchWord, exec_decByte_eq_exec_decodeByte, ← hi]
  rfl

/-! ## Consecutive FENDs (30_encoding.md R69) -/

/-- In an open and empty frame, FENDs pass without a trace (40_decoder_steps.md R95). -/
theorem bufLoop_fends {s : State} (hs : s.fsm = .inFrame) (hw : s.wcur = 0) (n pos : Nat)
    (events : List (Nat × Event)) : bufLoop (List.replicate n fend) pos events s = ⟨s, none, pos + n, events⟩ := by
  induction n generalizing pos with
  | zero => rfl
  | succ n ih =>
    have e : dstep fend s = quiet s := by
      have hr : dstep fend s = armRestart s := by simp [dstep, classify, hs, hw]
      rw [hr, armRestart, ← hw]
    rw [List.replicate_succ, bufLoop_cons_none (by rw [e]; rfl), e]
    simp only [quiet, noteEvent, if_pos]
    rw [ih, Nat.add_assoc, Nat.add_comm 1]

/-- Settles O28: the first FEND opens the frame, and the others find it empty. -/
theorem delimitersAloneReportNoFrame : Obligations.DelimitersAloneReportNoFrame := by
  intro s n
  have hopen : dstep fend (toIdle s) = armOpen (toIdle s) := by simp [dstep, classify]
  have loop : bufLoop (List.replicate (n + 1) fend) 0 [] (toIdle s) =
      ⟨{ s with fsm := .inFrame, wcur := 0 }, none, 1 + n, []⟩ := by
    rw [List.replicate_succ, bufLoop_cons_none (by rw [hopen]; rfl), hopen]
    exact bufLoop_fends rfl rfl n 1 []
  rw [exec, execDecBuf, loop, Nat.add_comm 1]
  rfl

end Sys2Proof.Machine

/-! SUPPORT. The decode step (40_decoder_steps.md): each arm where it is selected (R91 to R101) and nowhere else (R90),
the listing (R106), the transition graph (R103) and the noise of a DEC_BUF (R92). -/

namespace Sys2Proof.Machine

/-! ## What a decode step returns -/

@[simp] theorem returnStep_quiet (s : State) : returnStep (quiet s) = s.report (.step none .noEvent) [] := rfl

@[simp] theorem returnStep_abort (cause : Event) (s : State) :
    returnStep (abort cause s) = (toIdle s).report (.step none cause) [] := rfl

/-- CLOSE shows the bytes of the buffer as it was (R94, 10_state.md R25). -/
@[simp] theorem returnStep_armClose (s : State) :
    returnStep (armClose s) = (toIdle s).report (.step (some s.wcur) .noEvent) (s.payload s.wcur) := rfl

/-! ## The arms -/

/-- The append is the write at the cursor, and the laws of the memory give its cells (R104). -/
theorem returnStep_append_cells (v : Byte) (s : State) (fsm : Fsm) :
    ∃ d : Memory,
      (.next (returnStep (quiet { append v s with fsm := fsm })) : Run) =
        .next { s with
          fsm := fsm
          dbuf := d
          wcur := s.wcur + 1
          results := s.results ++ [⟨.step none .noEvent, []⟩] } ∧
      Memory.read? d s.wcur = some v ∧ ∀ a, a ≠ s.wcur → Memory.read? d a = Memory.read? s.dbuf a :=
  ⟨Memory.write s.dbuf s.wcur v, rfl, read_write_same _ _ _, fun _ ha => read_write_other _ v ha⟩

/-- Settles O1. -/
theorem openStartsAFrame : Obligations.OpenStartsAFrame := by
  intro s hf
  rw [exec_openFrame hf, armOpen, returnStep_quiet]
  rfl

/-- Settles O2. -/
theorem noiseChangesNothing : Obligations.NoiseChangesNothing := by
  intro s v hf hv
  rw [exec_noise hf hv, armNoise, returnStep_quiet]
  rfl

/-- Settles O3. -/
theorem escPrefixArmsTheEscape : Obligations.EscPrefixArmsTheEscape := by
  intro s hf
  rw [exec_escPrefix hf, armEscPrefix, returnStep_quiet]
  rfl

/-- Settles O4. -/
theorem closeReportsTheFrame : Obligations.CloseReportsTheFrame := by
  intro s hf hw
  rw [exec_closeFrame hf hw, returnStep_armClose]
  rfl

/-- Settles O5: the cursor that RESTART sets to 0 is 0 already. -/
theorem restartReportsNothing : Obligations.RestartReportsNothing := by
  intro s hf hw
  rw [exec_restart hf hw, armRestart, returnStep_quiet, ← hw]
  rfl

/-- Settles O6: DATA leaves `fsm` at what it is. -/
theorem dataAppendsTheByte : Obligations.DataAppendsTheByte := by
  intro s v hf h1 h2 hw
  rw [exec_data hf h1 h2 hw]
  exact returnStep_append_cells v s s.fsm

/-- Settles O7. -/
theorem dataOvfAbortsTheFrame : Obligations.DataOvfAbortsTheFrame := by
  intro s v hf h1 h2 hw
  rw [exec_dataOvf hf h1 h2 hw.ge, armDataOvf, returnStep_abort]
  rfl

/-- Settles O8. -/
theorem escEndAppendsFend : Obligations.EscEndAppendsFend := by
  intro s hf hw
  rw [exec_escEnd hf hw]
  exact returnStep_append_cells fend s .inFrame

/-- Settles O9. -/
theorem escEscAppendsFesc : Obligations.EscEscAppendsFesc := by
  intro s hf hw
  rw [exec_escEsc hf hw]
  exact returnStep_append_cells fesc s .inFrame

/-- Settles O10. -/
theorem escOvfAbortsTheFrame : Obligations.EscOvfAbortsTheFrame := by
  intro s x hf hw
  rw [exec_escOvf hf hw.ge, armEscOvf, returnStep_abort]
  rfl

/-- Settles O11. -/
theorem badEscAbortsTheFrame : Obligations.BadEscAbortsTheFrame := by
  intro s v hf h1 h2
  rw [exec_badEsc hf h1 h2, armBadEsc, returnStep_abort]
  rfl

/-! ## The rows of the decoder, where they are not selected -/

theorem whenSelected_of_not {c : Prop} [Decidable c] {p : State × StepResult} (h : ¬ c) :
    whenSelected (decide c) p = .refused .rowNotSelected := by
  simp [whenSelected, h]

/-- Settles O12: where a row is selected, some byte is read as it, namely the byte it is encoded as. -/
theorem unselectedDecoderRowIsRefused : Obligations.UnselectedDecoderRowIsRefused := by
  intro s i hcommand hsrcFend hsrcFesc hsrcPlain hunread
  cases i with
  | openFrame =>
    refine whenSelected_of_not fun hf => hunread fend ?_
    rw [decodeByte_idle _ hf, if_pos rfl]
  | noise v =>
    refine whenSelected_of_not fun ⟨hf, hv⟩ => hunread v ?_
    rw [decodeByte_idle _ hf, if_neg hv]
  | escPrefix =>
    refine whenSelected_of_not fun hf => hunread fesc ?_
    rw [decodeByte_inFrame _ hf, if_pos rfl]
  | closeFrame =>
    refine whenSelected_of_not fun ⟨hf, hw⟩ => hunread fend ?_
    rw [decodeByte_inFrame _ hf]
    simp [hw]
  | restart =>
    refine whenSelected_of_not fun ⟨hf, hw⟩ => hunread fend ?_
    rw [decodeByte_inFrame _ hf]
    simp [hw]
  | data v =>
    refine whenSelected_of_not fun ⟨hf, h1, h2, hw⟩ => hunread v ?_
    rw [decodeByte_inFrame _ hf, if_neg h2, if_neg h1, if_pos hw]
  | dataOvf v =>
    refine whenSelected_of_not fun ⟨hf, h1, h2, hw⟩ => hunread v ?_
    rw [decodeByte_inFrame _ hf, if_neg h2, if_neg h1, if_neg hw.not_gt]
  | escEnd =>
    refine whenSelected_of_not fun ⟨hf, hw⟩ => hunread tfend ?_
    rw [decodeByte_inFrameEscape _ hf, if_pos ⟨rfl, hw⟩]
  | escEsc =>
    refine whenSelected_of_not fun ⟨hf, hw⟩ => hunread tfesc ?_
    rw [decodeByte_inFrameEscape _ hf]
    simp [hw]
  | escOvf x =>
    refine whenSelected_of_not fun ⟨hf, hw⟩ => hunread (escByte x) ?_
    rw [decodeByte_inFrameEscape _ hf]
    simp [hw.not_gt, escByte_eq_tfend_or_tfesc, escBit_escByte]
  | badEsc v =>
    refine whenSelected_of_not fun ⟨hf, h1, h2⟩ => hunread v ?_
    rw [decodeByte_inFrameEscape _ hf]
    simp [h1, h2]
  | srcFend => exact absurd rfl hsrcFend
  | srcFesc => exact absurd rfl hsrcFesc
  | srcPlain v => exact absurd rfl (hsrcPlain v)
  | decByte | decBuf | decRead | encSize | enc | reset => cases hcommand

/-! ## The listing (R106) -/

/-- The answer `p` of a decode step from `s` is the effect `e`, with every other cell and field as before. -/
def PerformsEffect (s : State) (e : StepEffect) (p : State × StepResult) : Prop :=
  ∃ d : Memory, p = ({ s with fsm := e.fsm, wcur := e.wcur, dbuf := d }, ⟨e.frame, e.event⟩) ∧
    ∀ a, Memory.read? d a = if a = s.wcur ∧ e.stored.isSome then e.stored else Memory.read? s.dbuf a

theorem performsEffect_noStore (s : State) (fsm : Fsm) (wcur : Nat) (frame : Option Nat) (event : Event) :
    PerformsEffect s ⟨fsm, wcur, none, frame, event⟩ ({ s with fsm := fsm, wcur := wcur }, ⟨frame, event⟩) :=
  ⟨s.dbuf, rfl, fun a => by simp⟩

theorem performsEffect_append (s : State) (v : Byte) :
    PerformsEffect s ⟨.inFrame, s.wcur + 1, some v, none, .noEvent⟩ (quiet { append v s with fsm := .inFrame }) :=
  ⟨(append v s).dbuf, rfl, fun a => by simp [read_write]⟩

/-- The decode step is the listing: in each branch of R90 the arm taken has the effect the listing gives there. -/
theorem dstep_performs_listing (b : Byte) (s : State) : PerformsEffect s (listing s b) (dstep b s) := by
  rcases dstep_cases b s with ⟨hf, hb, e⟩ | ⟨hf, hb, e⟩ | ⟨hf, hb, e⟩ | ⟨hf, hb, hw, e⟩ | ⟨hf, hb, hw, e⟩ |
    ⟨hf, h1, h2, hw, e⟩ | ⟨hf, h1, h2, hw, e⟩ | ⟨hf, hb, hw, e⟩ | ⟨hf, hb, hw, e⟩ | ⟨hf, hb, hw, e⟩ |
    ⟨hf, h1, h2, e⟩ <;> rw [e]
  · have hl : listing s b = ⟨.inFrame, 0, none, none, .noEvent⟩ := by simp [listing, hf, hb]
    exact hl ▸ performsEffect_noStore ..
  · have hl : listing s b = ⟨s.fsm, s.wcur, none, none, .noEvent⟩ := by simp [listing, hf, hb]
    exact hl ▸ performsEffect_noStore ..
  · have hl : listing s b = ⟨.inFrameEscape, s.wcur, none, none, .noEvent⟩ := by simp [listing, hf, hb]
    exact hl ▸ performsEffect_noStore ..
  · have hl : listing s b = ⟨.idle, 0, none, some s.wcur, .noEvent⟩ := by simp [listing, hf, hb, hw]
    exact hl ▸ performsEffect_noStore ..
  · have hl : listing s b = ⟨s.fsm, 0, none, none, .noEvent⟩ := by simp [listing, hf, hb, hw]
    exact hl ▸ performsEffect_noStore ..
  · have hl : listing s b = ⟨.inFrame, s.wcur + 1, some b, none, .noEvent⟩ := by simp [listing, hf, h1, h2, hw]
    have harm : armData b s = quiet { append b s with fsm := .inFrame } := by rw [← hf]; rfl
    exact hl ▸ harm ▸ performsEffect_append ..
  · have hl : listing s b = ⟨.idle, 0, none, none, .frameTooLarge⟩ := by simp [listing, hf, h1, h2, hw.not_gt]
    exact hl ▸ performsEffect_noStore ..
  · have hl : listing s b = ⟨.inFrame, s.wcur + 1, some fend, none, .noEvent⟩ := by simp [listing, hf, hb, hw]
    exact hl ▸ performsEffect_append ..
  · have hl : listing s b = ⟨.inFrame, s.wcur + 1, some fesc, none, .noEvent⟩ := by simp [listing, hf, hb, hw]
    exact hl ▸ performsEffect_append ..
  · have hl : listing s b = ⟨.idle, 0, none, none, .frameTooLarge⟩ := by simp [listing, hf, hb, hw.not_gt]
    exact hl ▸ performsEffect_noStore ..
  · have hl : listing s b = ⟨.idle, 0, none, none, .badEscape⟩ := by simp [listing, hf, h1, h2]
    exact hl ▸ performsEffect_noStore ..

/-- The step that completes a frame stores nothing, so the frame is read from the buffer as it was (R94). -/
theorem dstep_frameContent (b : Byte) (s : State) :
    (dstep b s).1.frameContent (dstep b s).2.frame = s.frameContent (dstep b s).2.frame := by
  cases hframe : (dstep b s).2.frame with
  | none => rfl
  | some len =>
    obtain ⟨-, -, -, -, e⟩ := dstep_frame_some hframe
    rw [e]
    rfl

/-- Settles O21: DEC_BYTE returns what the decode step answers, and that is the listing. -/
theorem decByteFollowsTheListing : Obligations.DecByteFollowsTheListing := by
  intro s b
  obtain ⟨d, hstep, hcells⟩ := dstep_performs_listing b s
  have hcontent := dstep_frameContent b s
  refine ⟨d, ?_, hcells⟩
  rw [exec, execDecByte, returnStep, hcontent, hstep]
  cases (listing s b).frame <;> rfl

/-! ## The transition graph (R103) -/

/-- A DEC_BYTE goes along the edge of the listing. -/
theorem fsm_of_exec_decByte {b : Byte} {s t : State} (h : exec (.decByte b) s = .next t) :
    t.fsm = (listing s b).fsm := by
  obtain ⟨d, hstep, -⟩ := dstep_performs_listing b s
  cases h
  rw [returnStep, report_fsm, hstep]

/-- Settles O22: the edges are read off the listing, state by state. -/
theorem transitionGraphOfTheDecoder : Obligations.TransitionGraphOfTheDecoder := by
  intro s t b h
  rw [State.inEscape, fsm_of_exec_decByte h]
  refine ⟨fun hf => ?_, fun hf => ?_, fun hf => ?_⟩ <;> simp only [listing, hf]
  · by_cases hb : b = fend <;> simp [hb]
  · by_cases h1 : b = fesc
    · simp [h1]
    · by_cases h2 : b = fend
      · by_cases hw : 0 < s.wcur <;> simp [h2, hw]
      · rcases Nat.lt_or_ge s.wcur s.cfg.maxFrame with hw | hw
        · simp [h1, h2, hw, hw.not_ge]
        · simp [h1, h2, hw, hw.not_gt]
  · by_cases hb : b = tfend ∨ b = tfesc
    · by_cases hw : s.wcur < s.cfg.maxFrame <;> simp [hb, hw, inEscapeOf]
    · simp [hb, inEscapeOf]

/-! ## Noise (R92, 41_decoder_commands.md R127) -/

/-- Settles O27: the entry reset leaves the decoder in Idle, where the whole list is noise. -/
theorem decBufOfNoiseOnly : Obligations.DecBufOfNoiseOnly := by
  intro s bytes hnoise
  rw [exec, execDecBuf, bufLoop_noise (toIdle_fsm s) hnoise, Nat.zero_add]
  rfl

end Sys2Proof.Machine

/-! SUPPORT. The commands of the decoder (41_decoder_commands.md): DEC_BYTE is the selected arm (R120), DEC_BUF is
DEC_BYTE repeated (R129), its result triple (R122), DEC_READ (R123), and the frames a result reports (R128). -/

namespace Sys2Proof.Machine

/-! ## DEC_BYTE and DEC_READ -/

/-- Settles O20. -/
theorem decByteRunsTheSelectedArm : Obligations.DecByteRunsTheSelectedArm :=
  fun s b => exec_decByte_eq_exec_decodeByte b s

/-- Settles O29: one of the two cases of DEC_READ for each side of the bound. -/
theorem decReadReturnsTheCell : Obligations.DecReadReturnsTheCell := by
  intro s addr
  rcases execDecRead_cases addr s with ⟨hle, e⟩ | ⟨hlt, e⟩
  · exact ⟨fun hlt => absurd hlt hle.not_gt, fun _ => e⟩
  · exact ⟨fun _ => e, fun hle => absurd hlt hle.not_gt⟩

/-! ## DEC_BUF as DEC_BYTE repeated (R129) -/

theorem exec_decBuf (bytes : List Byte) (s : State) :
    exec (.decBuf bytes) s = .next (returnBuf (bufLoop bytes 0 [] (toIdle s))) := rfl

theorem bufLoop_setResults (bytes : List Byte) (pos : Nat) (events : List (Nat × Event)) (s : State)
    (r : List Observed) :
    bufLoop bytes pos events { s with results := r } =
      { bufLoop bytes pos events s with state := { (bufLoop bytes pos events s).state with results := r } } :=
  bufLoop_commutes (g := fun u => { u with results := r }) (fun b u => dstep_setResults b u r) bytes pos events s

/-- What the host reads off a result and what DEC_BUF notes of a step are the same event (R121, R122). -/
theorem noteEvent_append_eventsOf (events : List (Nat × Event)) (pos : Nat) (frame : Option Nat) (e : Event)
    (content : List Byte) (rest : List Observed) :
    noteEvent events pos e ++ eventsOf rest (pos + 1) =
      events ++ eventsOf (⟨.step frame e, content⟩ :: rest) pos := by
  cases e <;> simp [noteEvent, eventsOf]

/-- The results of DEC_BYTE repeated come after the earlier ones, and show the events that the loop of DEC_BUF notes. -/
theorem feedBytes_events {bytes : List Byte} {pos consumed : Nat} {s u : State} {frame : Option Nat}
    (h : feedBytes bytes pos s = some (u, frame, consumed)) (events : List (Nat × Event)) :
    ∃ shown, u.results = s.results ++ shown ∧
      (bufLoop bytes pos events s).events = events ++ eventsOf shown pos := by
  induction bytes generalizing pos events s with
  | nil => cases h; exact ⟨[], by simp, by simp [bufLoop, eventsOf]⟩
  | cons b rest ih =>
    have hkept := (dstep_sameHostSide b s).results
    cases hf : (dstep b s).2.frame with
    | some len =>
      rw [feedBytes_cons_some rest pos hf] at h
      cases h
      refine ⟨_, by rw [returnStep, report_results, hkept], ?_⟩
      rw [bufLoop_cons_some hf, ← noteEvent_append_eventsOf, eventsOf, List.append_nil]
    | none =>
      rw [feedBytes_cons_none rest pos hf] at h
      obtain ⟨shown, hshown, hevents⟩ := ih h (noteEvent events pos (dstep b s).2.event)
      refine ⟨_ :: shown, by rw [hshown, returnStep, report_results, hkept, List.append_assoc]; rfl, ?_⟩
      have hpass := bufLoop_setResults rest (pos + 1) (noteEvent events pos (dstep b s).2.event) (dstep b s).1
        (returnStep (dstep b s)).results
      rw [bufLoop_cons_none hf, ← noteEvent_append_eventsOf, ← hevents]
      exact (congrArg BufRun.events hpass).symm

/-- Settles O24: the loop of DEC_BUF and DEC_BYTE repeated take the same steps. -/
theorem decBufIsRepeatedDecByte : Obligations.DecBufIsRepeatedDecByte := by
  intro s bytes
  obtain ⟨results, hfeed⟩ := feedBytes_eq_bufLoop bytes 0 [] (toIdle s)
  obtain ⟨shown, hshown, hevents⟩ := feedBytes_events hfeed []
  have hkept : (bufLoop bytes 0 [] (toIdle s)).state.results = s.results :=
    (bufLoop_sameHostSide bytes 0 [] (toIdle s)).results
  refine ⟨_, _, _, hfeed, ?_⟩
  rw [exec_decBuf, hshown, toIdle_results, List.drop_left, ← List.nil_append (eventsOf shown 0), ← hevents,
    returnBuf, State.report, hkept]
  cases (bufLoop bytes 0 [] (toIdle s)).frame <;> rfl

/-! ## The result of DEC_BUF (R122) -/

/-- How far the loop goes: through the whole list, or up to and including the FEND that closes the frame. -/
theorem bufLoop_consumed (bytes : List Byte) (pos : Nat) (events : List (Nat × Event)) (s : State) :
    ∃ k ≤ bytes.length, (bufLoop bytes pos events s).consumed = pos + k ∧
      ((bufLoop bytes pos events s).frame = none → k = bytes.length) ∧
      ∀ len, (bufLoop bytes pos events s).frame = some len → 0 < k ∧ bytes[k - 1]? = some fend := by
  induction bytes generalizing pos events s with
  | nil => exact ⟨0, Nat.le_refl _, rfl, fun _ => rfl, nofun⟩
  | cons b rest ih =>
    cases hf : (dstep b s).2.frame with
    | some len =>
      obtain ⟨-, rfl, -⟩ := dstep_frame_some hf
      rw [bufLoop_cons_some hf]
      exact ⟨1, by simp, rfl, nofun, fun _ _ => ⟨Nat.one_pos, rfl⟩⟩
    | none =>
      obtain ⟨k, hle, hk, hnone, hsome⟩ := ih (pos + 1) (noteEvent events pos (dstep b s).2.event) (dstep b s).1
      rw [bufLoop_cons_none hf]
      refine ⟨k + 1, by simpa using hle, by rw [hk]; omega, fun h => by simp [hnone h], fun len h => ?_⟩
      obtain ⟨hpos, hfend⟩ := hsome len h
      obtain ⟨j, rfl⟩ := Nat.exists_eq_succ_of_ne_zero hpos.ne'
      exact ⟨Nat.succ_pos _, hfend⟩

/-- An events list of a DEC_BUF that stands at `pos`: in strictly ascending position below `pos`, and of the two kinds
a decode step raises (60_exceptions.md R161, R162). -/
structure EventsBelow (events : List (Nat × Event)) (pos : Nat) : Prop where
  ascending : events.Pairwise (fun x y => x.1 < y.1)
  each : ∀ e ∈ events, e.1 < pos ∧ (e.2 = .badEscape ∨ e.2 = .frameTooLarge)

/-- A decode step raises nothing, or one of the two causes of the abort (60_exceptions.md R161, R162). -/
theorem dstep_event (b : Byte) (s : State) :
    (dstep b s).2.event = .noEvent ∨ (dstep b s).2.event = .badEscape ∨ (dstep b s).2.event = .frameTooLarge := by
  rcases dstep_cases b s with ⟨-, -, e⟩ | ⟨-, -, e⟩ | ⟨-, -, e⟩ | ⟨-, -, -, e⟩ | ⟨-, -, -, e⟩ | ⟨-, -, -, -, e⟩ |
    ⟨-, -, -, -, e⟩ | ⟨-, -, -, e⟩ | ⟨-, -, -, e⟩ | ⟨-, -, -, e⟩ | ⟨-, -, -, e⟩ <;> rw [e]
  any_goals exact .inl rfl
  · exact .inr (.inr rfl)
  · exact .inr (.inr rfl)
  · exact .inr (.inl rfl)

theorem EventsBelow.note {events : List (Nat × Event)} {pos : Nat} (h : EventsBelow events pos) (b : Byte)
    (s : State) : EventsBelow (noteEvent events pos (dstep b s).2.event) (pos + 1) := by
  have hold : ∀ e ∈ events, e.1 < pos + 1 ∧ (e.2 = .badEscape ∨ e.2 = .frameTooLarge) := fun e he =>
    ⟨Nat.lt_succ_of_lt (h.each e he).1, (h.each e he).2⟩
  unfold noteEvent
  split
  case isTrue => exact ⟨h.ascending, hold⟩
  case isFalse hraised =>
    refine ⟨List.pairwise_append.2 ⟨h.ascending, List.pairwise_singleton _ _, fun e he x hx => ?_⟩, fun e he => ?_⟩
    · rw [List.mem_singleton.1 hx]
      exact (h.each e he).1
    · rcases List.mem_append.1 he with he | he
      · exact hold e he
      · rw [List.mem_singleton.1 he]
        exact ⟨Nat.lt_succ_self _, (dstep_event b s).resolve_left hraised⟩

theorem bufLoop_eventsBelow {bytes : List Byte} {pos : Nat} {events : List (Nat × Event)} (s : State)
    (h : EventsBelow events pos) :
    EventsBelow (bufLoop bytes pos events s).events (bufLoop bytes pos events s).consumed := by
  induction bytes generalizing pos events s with
  | nil => exact h
  | cons b rest ih =>
    cases hf : (dstep b s).2.frame with
    | some len => rw [bufLoop_cons_some hf]; exact h.note b s
    | none => rw [bufLoop_cons_none hf]; exact ih _ (h.note b s)

/-- Settles O25. -/
theorem decBufResultTriple : Obligations.DecBufResultTriple := by
  intro s bytes
  obtain ⟨k, hle, hk, hnone, hsome⟩ := bufLoop_consumed bytes 0 [] (toIdle s)
  obtain ⟨hascending, heach⟩ := bufLoop_eventsBelow (bytes := bytes) (toIdle s) (pos := 0) ⟨.nil, nofun⟩
  have hkept := (bufLoop_sameHostSide bytes 0 [] (toIdle s)).results
  rw [Nat.zero_add] at hk
  refine ⟨_, _, _, _, _, exec_decBuf bytes s, by rw [returnBuf, report_results, hkept]; rfl, ?_⟩
  rw [hk] at heach ⊢
  exact ⟨hle, hnone, hsome, hascending, heach⟩

/-! ## The frames a result reports (R128) -/

/-- A frame reported in state `t` has a length of 1 to `MAX_FRAME`, and the decoder is between frames. -/
def FrameIsWhole (t : State) (frame : Option Nat) : Prop :=
  ∀ len ∈ frame, 1 ≤ len ∧ len ≤ t.cfg.maxFrame ∧ t.fsm = .idle ∧ t.wcur = 0

theorem armClose_frameIsWhole {s : State} (hi : s.Inv) (hw : 0 < s.wcur) :
    FrameIsWhole (armClose s).1 (armClose s).2.frame := by
  rintro _ ⟨⟩
  exact ⟨hw, hi.wcur_le, rfl, rfl⟩

theorem dstep_frameIsWhole {s : State} (hi : s.Inv) (b : Byte) :
    FrameIsWhole (dstep b s).1 (dstep b s).2.frame := by
  intro len hlen
  obtain ⟨-, -, hw, -, e⟩ := dstep_frame_some hlen
  rw [e] at hlen ⊢
  exact armClose_frameIsWhole hi hw len hlen

theorem bufLoop_frameIsWhole {s : State} (hi : s.Inv) (bytes : List Byte) (pos : Nat)
    (events : List (Nat × Event)) :
    FrameIsWhole (bufLoop bytes pos events s).state (bufLoop bytes pos events s).frame := by
  induction bytes generalizing pos events s with
  | nil => exact nofun
  | cons b rest ih =>
    cases hf : (dstep b s).2.frame with
    | some len => rw [bufLoop_cons_some hf, ← hf]; exact dstep_frameIsWhole hi b
    | none => rw [bufLoop_cons_none hf]; exact ih (dstep_keeps_inv hi b) _ _

/-- Every frame in a result that comes after those of `s` is whole, shown in full, and raises no step event. -/
def ReportsWholeFrames (s t : State) : Prop :=
  ∀ o ∈ t.results.drop s.results.length, ∀ len, o.result.frame? = some len →
    1 ≤ len ∧ len ≤ s.cfg.maxFrame ∧ (∀ e, o.result = .step (some len) e → e = .noEvent) ∧
    o.content = (List.range len).map t.readDbuf ∧ t.fsm = .idle ∧ t.wcur = 0

theorem reportsWholeFrames_of_noResult {s t : State} (h : t.results = s.results) : ReportsWholeFrames s t := by
  intro o ho
  rw [h, List.drop_length] at ho
  cases ho

/-- The new results after a report are the one reported. -/
theorem mem_drop_report {s u : State} {r : Result} {content : List Byte} {o : Observed}
    (h : u.results = s.results) (ho : o ∈ (u.report r content).results.drop s.results.length) :
    o = ⟨r, content⟩ := by
  rw [report_results, h, List.drop_left] at ho
  exact List.mem_singleton.1 ho

theorem reportsWholeFrames_of_noFrame {s u : State} {r : Result} {content : List Byte}
    (h : u.results = s.results) (hr : r.frame? = none) : ReportsWholeFrames s (u.report r content) := by
  intro o ho len hlen
  rw [mem_drop_report h ho, hr] at hlen
  cases hlen

/-- A decode step that returns a whole frame with no event; both feed commands return a result of this form. -/
theorem reportsWholeFrames_of_frame {s u : State} {r : Result} (h : SameHostSide s u)
    (hwhole : FrameIsWhole u r.frame?) (hevent : ∀ len e, r = .step (some len) e → e = .noEvent) :
    ReportsWholeFrames s (u.report r (u.frameContent r.frame?)) := by
  intro o ho len hlen
  rw [mem_drop_report h.results ho] at hlen ⊢
  obtain ⟨hpos, hle, hf, hw⟩ := hwhole len hlen
  rw [h.cfg] at hle
  refine ⟨hpos, hle, hevent len, ?_, hf, hw⟩
  rw [show r.frame? = some len from hlen]
  rfl

theorem dstep_event_of_frame {b : Byte} {s : State} {len : Nat} {e : Event}
    (h : Result.step (dstep b s).2.frame (dstep b s).2.event = .step (some len) e) : e = .noEvent := by
  obtain ⟨hframe, rfl⟩ := Result.step.inj h
  obtain ⟨-, -, -, -, harm⟩ := dstep_frame_some hframe
  rw [harm]
  rfl

/-- A row of the decoder that completes no frame. -/
theorem reportsWholeFrames_of_whenSelected {c : Bool} {p : State × StepResult} {s t : State}
    (h : whenSelected c p = .next t) (hp : SameHostSide s p.1) (hframe : p.2.frame = none) :
    ReportsWholeFrames s t := by
  obtain ⟨-, rfl⟩ := whenSelected_eq_next.1 h
  exact reportsWholeFrames_of_noFrame hp.results hframe

theorem execClose_reportsWholeFrames {s t : State} (hi : s.Inv) (h : execClose s = .next t) :
    ReportsWholeFrames s t := by
  obtain ⟨hc, rfl⟩ := whenSelected_eq_next.1 h
  obtain ⟨-, hw⟩ := of_decide_eq_true hc
  exact reportsWholeFrames_of_frame (r := .step (some s.wcur) .noEvent) (toIdle_sameHostSide s)
    (armClose_frameIsWhole hi hw) fun _ _ h => (Result.step.inj h).2.symm

theorem execDecRead_reportsWholeFrames {addr : Nat} {s t : State} (h : execDecRead addr s = .next t) :
    ReportsWholeFrames s t := by
  rcases execDecRead_cases addr s with ⟨-, e⟩ | ⟨-, e⟩ <;> cases e.symm.trans h
  · exact reportsWholeFrames_of_noResult rfl
  · exact reportsWholeFrames_of_noFrame rfl rfl

theorem execEnc_reportsWholeFrames {src : List Byte} {dstCap : Nat} {s t : State}
    (h : execEnc src dstCap s = .next t) : ReportsWholeFrames s t := by
  rcases execEnc_fits src dstCap s with ⟨error, e⟩ | ⟨hfit, e⟩
  · cases e.symm.trans h
    exact reportsWholeFrames_of_noFrame rfl rfl
  · obtain ⟨d, hd, -⟩ := encFrame_writes_wireFrame hfit s
    cases (e.trans hd).symm.trans h
    exact reportsWholeFrames_of_noFrame rfl rfl

theorem exec_reportsWholeFrames {i : Instr} {s t : State} (hi : s.Inv) (h : exec i s = .next t) :
    ReportsWholeFrames s t := by
  cases i with
  | openFrame | noise | escPrefix | restart | data | dataOvf | escEnd | escEsc | escOvf | badEsc =>
    exact reportsWholeFrames_of_whenSelected h ⟨rfl, rfl, rfl⟩ rfl
  | closeFrame => exact execClose_reportsWholeFrames hi h
  | srcFend | srcFesc => exact reportsWholeFrames_of_noResult (emitPair_sameHostSide h).results
  | srcPlain v => exact reportsWholeFrames_of_noResult (execSrcPlain_sameHostSide h).results
  | decByte b =>
    cases h
    exact reportsWholeFrames_of_frame (r := .step _ _) (dstep_sameHostSide b s) (dstep_frameIsWhole hi b)
      fun _ _ => dstep_event_of_frame
  | decBuf bytes =>
    cases h
    exact reportsWholeFrames_of_frame (r := .buf _ _ _)
      ((toIdle_sameHostSide s).trans (bufLoop_sameHostSide bytes 0 [] _)) (bufLoop_frameIsWhole hi.toIdle bytes 0 [])
      nofun
  | decRead addr => exact execDecRead_reportsWholeFrames h
  | encSize src => cases h; exact reportsWholeFrames_of_noFrame rfl rfl
  | enc src dstCap => exact execEnc_reportsWholeFrames h
  | reset => cases h; exact reportsWholeFrames_of_noResult rfl

/-- Settles O30: only CLOSE completes a frame, and the invariant bounds the cursor it reports. -/
theorem reportedFramesAreWhole : Obligations.ReportedFramesAreWhole :=
  fun _ _ _ o len hi h ho => exec_reportsWholeFrames hi h o ho len

end Sys2Proof.Machine

/-! SUPPORT. Encoder and decoder together (41_decoder_commands.md R131): the wire form of a payload, run through the
loop of DEC_BUF, gives the payload back where it fits and is aborted once where it does not. -/

namespace Sys2Proof.Machine

/-! ## A frame on the wire -/

/-- The state inside a frame just opened (40_decoder_steps.md R91). -/
def opened (s : State) : State := { s with fsm := .inFrame, wcur := 0 }

@[simp] theorem opened_fsm (s : State) : (opened s).fsm = .inFrame := rfl
@[simp] theorem opened_wcur (s : State) : (opened s).wcur = 0 := rfl
@[simp] theorem opened_cfg (s : State) : (opened s).cfg = s.cfg := rfl

/-- Between frames, or in a frame with nothing buffered: where a FEND opens a frame (R91, R95). -/
def AwaitsFrame (s : State) : Prop := s.fsm = .idle ∨ (s.fsm = .inFrame ∧ s.wcur = 0)

theorem toIdle_awaitsFrame (s : State) : AwaitsFrame (toIdle s) := .inl rfl

theorem dstep_fend_opens {s : State} (h : AwaitsFrame s) : dstep fend s = quiet (opened s) := by
  rcases h with hf | ⟨hf, hw⟩
  · simp [dstep, classify, hf, armOpen, opened]
  · simp [dstep, classify, hf, hw, armRestart, opened]

theorem bufLoop_fend_opens {s : State} (h : AwaitsFrame s) (w : List Byte) (pos : Nat)
    (events : List (Nat × Event)) :
    bufLoop (fend :: w) pos events s = bufLoop w (pos + 1) events (opened s) := by
  rw [bufLoop_cons_none (by rw [dstep_fend_opens h]; rfl), dstep_fend_opens h]
  rfl

theorem bufLoop_fend_closes {s : State} (hf : s.fsm = .inFrame) (hw : 0 < s.wcur) (pos : Nat)
    (events : List (Nat × Event)) :
    bufLoop [fend] pos events s = ⟨toIdle s, some s.wcur, pos + 1, events⟩ := by
  have e : dstep fend s = armClose s := by simp [dstep, classify, hf, hw]
  rw [bufLoop_cons_some (len := s.wcur) (by rw [e]; rfl), e]
  rfl

/-! ## A payload that fits -/

/-- The state after a whole frame with payload `p`: between frames, the payload at the start of the buffer. -/
def received (p : List Byte) (s : State) : State := toIdle (appendAll p (opened s))

theorem appendAll_opened (p : List Byte) (s : State) :
    (appendAll p (opened s)).fsm = .inFrame ∧ (appendAll p (opened s)).wcur = p.length := by
  obtain ⟨d, hd, -⟩ := appendAll_spec p (opened s)
  rw [hd]
  exact ⟨rfl, Nat.zero_add _⟩

theorem received_fsm (p : List Byte) (s : State) : (received p s).fsm = .idle := rfl

theorem received_results (p : List Byte) (s : State) : (received p s).results = s.results := by
  obtain ⟨d, hd, -⟩ := appendAll_spec p (opened s)
  rw [received, hd]
  rfl

theorem received_readDbuf {p : List Byte} (s : State) {k : Nat} (hk : k < p.length) :
    (received p s).readDbuf k = p[k] := by
  obtain ⟨d, hd, hread⟩ := appendAll_spec p (opened s)
  have hcell : Memory.read? d k = some p[k] := by rw [hread k, opened_wcur, if_pos (by omega)]; simp [hk]
  rw [received, hd]
  exact readDbuf_of_read hcell

theorem received_payload (p : List Byte) (s : State) : (received p s).payload p.length = p :=
  List.ext_getElem (by simp [State.payload]) fun k _ hk => by simp [State.payload, received_readDbuf s hk]

/-- The wire form of a payload that fits is one frame, complete at its last byte (R131). -/
theorem bufLoop_wireFrame {p : List Byte} {s : State} (h : AwaitsFrame s) (hne : p ≠ [])
    (hfit : p.length ≤ s.cfg.maxFrame) :
    bufLoop (wireFrame p) 0 [] s = ⟨received p s, some p.length, (wireFrame p).length, []⟩ := by
  have himages := bufLoop_images (p := p) (opened_fsm s) (by simpa using hfit) 1 []
  obtain ⟨hfsm, hwcur⟩ := appendAll_opened p s
  have hw : 0 < (appendAll p (opened s)).wcur := hwcur ▸ List.length_pos_of_ne_nil hne
  have hlen : 1 + (p.flatMap image).length + 1 = (wireFrame p).length := by rw [wireFrame_length, images_length]; omega
  rw [← hlen, wireFrame, bufLoop_fend_opens h, bufLoop_append (by rw [himages]), himages, bufLoop_fend_closes hfsm hw,
    hwcur]
  rfl

/-- What ENC returns where it has the capacity: the wire form of the source (42_encoder.md R141). -/
theorem exec_enc_returns_wireFrame {src : List Byte} {dstCap : Nat} (hne : src ≠ [])
    (hcap : src.length + escapeCount src + 2 ≤ dstCap) (s : State) :
    ∃ t, exec (.enc src dstCap) s = .next t ∧
      t.results = s.results ++ [⟨.enc (wireFrame src).length .noEvent, wireFrame src⟩] := by
  rw [← encodedSize_eq] at hcap
  have henc : exec (.enc src dstCap) s = encFrame src dstCap s := by
    simp [exec, execEnc, hne, hcap.not_gt]
  obtain ⟨d, hd, hover⟩ := encFrame_writes_wireFrame hcap s
  have hbytes : Memory.firstBytes d (wireFrame src).length = wireFrame src :=
    firstBytes_eq fun k hk => by rw [hover k, if_pos (by omega)]; simp [hk]
  refine ⟨_, henc.trans hd, ?_⟩
  rw [report_results, encodedSize_eq, ← wireFrame_length, hbytes]

/-- Settles O51: what ENC returns is the wire form of its source, and both feed commands run the loop of DEC_BUF. -/
theorem encodedFrameDecodesToItsSource : Obligations.EncodedFrameDecodesToItsSource := by
  intro s src dstCap hne hcap
  obtain ⟨t, henc, hres⟩ := exec_enc_returns_wireFrame hne hcap s
  refine ⟨t, wireFrame src, henc, hres, fun r hfit => ⟨fun hr => ?_, ?_⟩⟩
  · obtain ⟨results, hfeed⟩ := feedBytes_eq_bufLoop (wireFrame src) 0 [] r
    obtain ⟨shown, hshown, hevents⟩ := feedBytes_events hfeed []
    rw [bufLoop_wireFrame hr hne hfit] at hfeed hevents
    refine ⟨_, hfeed, ?_, rfl, rfl, fun k hk => received_readDbuf r hk⟩
    rw [hshown, List.drop_left]
    exact hevents.symm
  · refine ⟨_, exec_decBuf _ r, ?_⟩
    rw [bufLoop_wireFrame (toIdle_awaitsFrame r) hne hfit]
    refine ⟨?_, rfl, rfl, fun k hk => received_readDbuf (toIdle r) hk⟩
    rw [returnBuf, report_results, received_results, toIdle_results]
    simp only [State.frameContent, received_payload]

/-! ## A payload that does not fit -/

/-- In a full frame, the image of a byte is the abort, at its last byte (40_decoder_steps.md R97, R100). -/
theorem bufLoop_image_full {v : Byte} {s : State} (hs : s.fsm = .inFrame) (hw : s.cfg.maxFrame ≤ s.wcur) (pos : Nat)
    (events : List (Nat × Event)) :
    bufLoop (image v) pos events s =
      ⟨toIdle s, none, pos + (image v).length, events ++ [(pos + (image v).length - 1, .frameTooLarge)]⟩ := by
  by_cases h1 : v = fend
  · simp [h1, image, bufLoop, dstep, classify, hs, hw.not_gt, armEscPrefix, armEscOvf, quiet, abort, noteEvent, toIdle]
  · by_cases h2 : v = fesc
    · simp [h2, image, bufLoop, dstep, classify, hs, hw.not_gt, armEscPrefix, armEscOvf, quiet, abort, noteEvent,
        toIdle]
    · simp [image, bufLoop, dstep, classify, hs, hw.not_gt, h1, h2, armDataOvf, abort, noteEvent]

/-- The images of a payload one byte too long, fed into a frame just opened, fill the buffer and end in the abort. -/
theorem bufLoop_images_full {p : List Byte} {v : Byte} {s : State} (hp : p.length = s.cfg.maxFrame) (pos : Nat)
    (events : List (Nat × Event)) :
    bufLoop ((p ++ [v]).flatMap image) pos events (opened s) =
      ⟨received p s, none, pos + ((p ++ [v]).flatMap image).length,
        events ++ [(pos + ((p ++ [v]).flatMap image).length - 1, .frameTooLarge)]⟩ := by
  have himages := bufLoop_images (p := p) (opened_fsm s) (by simpa using hp.le) pos events
  obtain ⟨hfsm, hwcur⟩ := appendAll_opened p s
  have hfull : (appendAll p (opened s)).cfg.maxFrame ≤ (appendAll p (opened s)).wcur := by
    obtain ⟨d, hd, -⟩ := appendAll_spec p (opened s)
    rw [hwcur, hd]
    exact hp.ge
  have hsplit : (p ++ [v]).flatMap image = p.flatMap image ++ image v := by simp
  rw [hsplit, bufLoop_append (by rw [himages]), himages, bufLoop_image_full hfsm hfull, List.length_append,
    Nat.add_assoc]
  rfl

/-- Between frames, bytes that are not FEND pass without a trace, and the FEND after them opens a frame (R92, R91). -/
theorem bufLoop_noise_fend {w : List Byte} {s : State} (hs : s.fsm = .idle) (hw : fend ∉ w) (pos : Nat)
    (events : List (Nat × Event)) :
    bufLoop (w ++ [fend]) pos events s = ⟨opened s, none, pos + (w.length + 1), events⟩ := by
  rw [bufLoop_append (by rw [bufLoop_noise hs hw]), bufLoop_noise hs hw, bufLoop_fend_opens (.inl hs)]
  rfl

/-- The wire form of a payload that does not fit: the buffer is full at `p[MAX_FRAME]`, whose image is the abort; the
images after it are noise, and the closing FEND opens a frame (R131). -/
theorem bufLoop_wireFrame_long {p : List Byte} {s : State} (h : AwaitsFrame s) (hlong : s.cfg.maxFrame < p.length) :
    bufLoop (wireFrame p) 0 [] s =
      ⟨opened (received (p.take s.cfg.maxFrame) s), none, (wireFrame p).length,
        [(((p.take (s.cfg.maxFrame + 1)).flatMap image).length, .frameTooLarge)]⟩ := by
  have hfill : (p.take s.cfg.maxFrame).length = s.cfg.maxFrame := by simp [hlong.le]
  have hsplit : p.flatMap image =
      (p.take (s.cfg.maxFrame + 1)).flatMap image ++ (p.drop (s.cfg.maxFrame + 1)).flatMap image := by
    rw [← List.flatMap_append, List.take_append_drop]
  have habort := bufLoop_images_full (v := p[s.cfg.maxFrame]) hfill 1 []
  rw [List.take_append_getElem hlong] at habort
  have hlen : 1 + ((p.take (s.cfg.maxFrame + 1)).flatMap image).length +
      (((p.drop (s.cfg.maxFrame + 1)).flatMap image).length + 1) = (wireFrame p).length := by
    rw [wireFrame, hsplit, List.length_cons, List.length_append, List.length_append, List.length_singleton]
    omega
  rw [← hlen, wireFrame, bufLoop_fend_opens h, hsplit, List.append_assoc, bufLoop_append (by rw [habort]), habort,
    bufLoop_noise_fend (received_fsm _ s) (fend_not_mem_images _), Nat.add_sub_cancel_left, List.nil_append]

/-- Settles O52: DEC_BUF starts between frames, and shows nothing of a frame that is not reported. -/
theorem oversizeFrameIsAbortedOnce : Obligations.OversizeFrameIsAbortedOnce := by
  intro s src hlong
  refine ⟨_, exec_decBuf _ s, ?_⟩
  rw [bufLoop_wireFrame_long (toIdle_awaitsFrame s) hlong]
  refine ⟨?_, rfl, rfl⟩
  rw [returnBuf, report_results]
  exact congrArg (· ++ _) (received_results _ _)

end Sys2Proof.Machine

/-! SUPPORT. The encoder by itself (42_encoder.md): what each emit step stores and where it stops, the three ways an ENC
ends, the shape of the frame it writes (R151), and that it neither touches nor reads the decoder (R149). -/

namespace Sys2Proof.Machine

/-! ## Bytes laid over a space -/

theorem Overlaid.cell {m d : Memory} {j : Nat} {w : List Byte} (h : Overlaid m d j w) {k : Nat} (hk : k < w.length) :
    Memory.read? d (j + k) = some w[k] := by
  rw [h, if_pos (by omega), Nat.add_sub_cancel_left, List.getElem?_eq_getElem hk]

theorem Overlaid.outside {m d : Memory} {j a : Nat} {w : List Byte} (h : Overlaid m d j w)
    (ha : a < j ∨ j + w.length ≤ a) : Memory.read? d a = Memory.read? m a := by
  rw [h, if_neg (by omega)]

/-! ## The emit steps -/

section EmitStep
variable {s : State} {e : EncRun}

/-- SRC_FEND and SRC_FESC with room for their pair (R142, R143). -/
theorem emitPair_within (v w : Byte) (he : s.enc = some e) (hcap : e.j + 2 ≤ e.cap) :
    ∃ d : Memory, andThen (emit v s) (emit w) = .next { s with dst := d, enc := some ⟨e.j + 2, e.cap⟩ } ∧
      Memory.read? d e.j = some v ∧ Memory.read? d (e.j + 1) = some w ∧
      ∀ a, a ≠ e.j → a ≠ e.j + 1 → Memory.read? d a = Memory.read? s.dst a := by
  obtain ⟨d, hd, hover, -⟩ := (Emits.one v).append (Emits.one w) s e he hcap
  refine ⟨d, hd, hover.cell (k := 0) (by simp), hover.cell (k := 1) (by simp), fun a h0 h1 => hover.outside ?_⟩
  simp only [List.cons_append, List.nil_append, List.length_cons, List.length_nil]
  omega

theorem emitPair_outside (v w : Byte) (he : s.enc = none) :
    andThen (emit v s) (emit w) = .refused .rowNotSelected := by
  rw [emit_outside v he, andThen_refused]

/-- A pair with room for one byte at most stops at its first byte or at its second. -/
theorem emitPair_beyond (v w : Byte) (he : s.enc = some e) (hcap : e.cap < e.j + 2) :
    andThen (emit v s) (emit w) = .fault .dstBound := by
  rcases Nat.lt_or_ge e.j e.cap with hroom | hfull
  · rw [emit_within v he hroom, andThen_next]
    exact emit_beyond w rfl (Nat.le_of_lt_succ hcap)
  · rw [emit_beyond v he hfull, andThen_fault]

theorem exec_srcPlain {v : Byte} (h1 : v ≠ fend) (h2 : v ≠ fesc) : exec (.srcPlain v) s = emit v s :=
  if_neg (not_or.2 ⟨h1, h2⟩)

theorem exec_srcPlain_outside (v : Byte) (he : s.enc = none) :
    exec (.srcPlain v) s = .refused .rowNotSelected := by
  by_cases hv : v = fend ∨ v = fesc
  · exact if_pos hv
  · exact (if_neg hv).trans (emit_outside v he)

end EmitStep

/-- Settles O32. -/
theorem srcFendEmitsItsPair : Obligations.SrcFendEmitsItsPair :=
  fun _ _ he hcap => emitPair_within fesc tfend he hcap

/-- Settles O33. -/
theorem srcFescEmitsItsPair : Obligations.SrcFescEmitsItsPair :=
  fun _ _ he hcap => emitPair_within fesc tfesc he hcap

/-- Settles O34. -/
theorem srcPlainEmitsTheByte : Obligations.SrcPlainEmitsTheByte := by
  intro s e v he hcap h1 h2
  refine ⟨Memory.write s.dst e.j v, (exec_srcPlain h1 h2).trans (emit_within v he hcap), read_write_same _ _ _,
    fun a ha => read_write_other _ v ha⟩

/-- Settles O35: the index and the capacity are tested byte by byte. -/
theorem emitStepsStopOutsideTheirRange : Obligations.EmitStepsStopOutsideTheirRange := by
  refine ⟨fun s v he => ⟨?_, ?_, ?_⟩, fun s e he hcap => ⟨?_, ?_⟩, fun s e v he hcap h1 h2 => ?_⟩
  · exact emitPair_outside fesc tfend he
  · exact emitPair_outside fesc tfesc he
  · exact exec_srcPlain_outside v he
  · exact emitPair_beyond fesc tfend he hcap
  · exact emitPair_beyond fesc tfesc he hcap
  · exact (exec_srcPlain h1 h2).trans (emit_beyond v he hcap)

/-! ## The commands, case by case -/

theorem exec_encSize (src : List Byte) (s : State) :
    exec (.encSize src) s = .next (s.report (.size (src.length + escapeCount src + 2)) []) := by
  rw [← encodedSize_eq]
  rfl

theorem exec_enc_nil (dstCap : Nat) (s : State) : exec (.enc [] dstCap) s = .next (s.report (.enc 0 .noEvent) []) :=
  rfl

section Enc
variable {src : List Byte} {dstCap : Nat}

theorem exec_enc_short (hne : src ≠ []) (hcap : dstCap < src.length + escapeCount src + 2) (s : State) :
    exec (.enc src dstCap) s = .next (s.report (.enc 0 .encCapacity) []) := by
  rw [← encodedSize_eq] at hcap
  simp [exec, execEnc, hne, hcap]

/-- With the capacity there, ENC lays the wire form of its source over DST from index 0, and returns it (R141). -/
theorem exec_enc_fits (hne : src ≠ []) (hcap : src.length + escapeCount src + 2 ≤ dstCap) (s : State) :
    ∃ d, exec (.enc src dstCap) s =
        .next ({ s with dst := d, enc := none }.report (.enc (wireFrame src).length .noEvent) (wireFrame src)) ∧
      Overlaid s.dst d 0 (wireFrame src) := by
  rw [← encodedSize_eq] at hcap
  have henc : exec (.enc src dstCap) s = encFrame src dstCap s := by
    simp [exec, execEnc, hne, hcap.not_gt]
  obtain ⟨d, hd, hover⟩ := encFrame_writes_wireFrame hcap s
  have hbytes : Memory.firstBytes d (wireFrame src).length = wireFrame src :=
    firstBytes_eq fun k hk => by simpa only [Nat.zero_add] using hover.cell hk
  refine ⟨d, ?_, hover⟩
  rw [henc, hd, encodedSize_eq, ← wireFrame_length, hbytes]

end Enc

/-- Settles O36. -/
theorem encSizeFormula : Obligations.EncSizeFormula :=
  fun s src => exec_encSize src s

/-- Settles O37. -/
theorem encOfNothingWritesNothing : Obligations.EncOfNothingWritesNothing :=
  fun s dstCap => exec_enc_nil dstCap s

/-- Settles O38. -/
theorem encCapacityIsCheckedFirst : Obligations.EncCapacityIsCheckedFirst :=
  fun s _ _ hne hcap => exec_enc_short hne hcap s

/-- Settles O39: the bytes are the wire form of the source. -/
theorem encWritesTheFrame : Obligations.EncWritesTheFrame := by
  intro s src dstCap hne hcap
  obtain ⟨d, hd, hover⟩ := exec_enc_fits hne hcap s
  refine ⟨d, wireFrame src, rfl, wireFrame_length src, hd, fun k hk => ?_, fun a ha => ?_⟩
  · simpa only [Nat.zero_add] using hover.cell hk
  · exact hover.outside (.inr (by rwa [Nat.zero_add]))

/-! ## The shape of the wire form (R151) -/

theorem image_cases (v : Byte) :
    image v = [fesc, tfend] ∨ image v = [fesc, tfesc] ∨ ∃ w, image v = [w] ∧ w ≠ fend ∧ w ≠ fesc := by
  by_cases h1 : v = fend
  · exact .inl (if_pos h1)
  · by_cases h2 : v = fesc
    · exact .inr (.inl ((if_neg h1).trans (if_pos h2)))
    · exact .inr (.inr ⟨v, (if_neg h1).trans (if_neg h2), h1, h2⟩)

theorem EscapesPaired.nil : EscapesPaired [] := nofun

theorem EscapesPaired.singleton {v : Byte} (h : v ≠ fesc) : EscapesPaired [v] := by
  intro k hk
  cases k with
  | zero => exact absurd (Option.some.inj hk) h
  | succ k => simp at hk

theorem EscapesPaired.pair {v : Byte} (h : v = tfend ∨ v = tfesc) : EscapesPaired [fesc, v] := by
  intro k hk
  match k with
  | 0 => exact h.imp (congrArg some) (congrArg some)
  | 1 => rcases h with rfl | rfl <;> exact absurd hk (by decide)
  | k + 2 => simp at hk

/-- A pair stands whole in one of the two strings. -/
theorem EscapesPaired.append {w x : List Byte} (hw : EscapesPaired w) (hx : EscapesPaired x) :
    EscapesPaired (w ++ x) := by
  intro k hk
  rcases Nat.lt_or_ge k w.length with hlt | hge
  · rw [List.getElem?_append_left hlt] at hk
    have hin : ∀ {b : Byte}, w[k + 1]? = some b → (w ++ x)[k + 1]? = some b := fun h =>
      (List.getElem?_append_left (List.getElem?_eq_some_iff.1 h).1).trans h
    exact (hw k hk).imp hin hin
  · rw [List.getElem?_append_right hge] at hk
    rw [List.getElem?_append_right (by omega), Nat.sub_add_comm hge]
    exact hx _ hk

theorem image_escapesPaired (v : Byte) : EscapesPaired (image v) := by
  rcases image_cases v with h | h | ⟨w, h, -, hw⟩ <;> rw [h]
  · exact .pair (.inl rfl)
  · exact .pair (.inr rfl)
  · exact .singleton hw

theorem images_escapesPaired (src : List Byte) : EscapesPaired (src.flatMap image) := by
  induction src with
  | nil => exact .nil
  | cons v rest ih => exact (image_escapesPaired v).append ih

theorem wireFrame_escapesPaired (src : List Byte) : EscapesPaired (wireFrame src) :=
  have hfend : EscapesPaired [fend] := .singleton fend_ne_fesc
  hfend.append ((images_escapesPaired src).append hfend)

/-- FEND stands at the two ends of a wire form and nowhere else. -/
theorem wireFrame_getElem_eq_fend_iff (src : List Byte) {k : Nat} (hk : k < (wireFrame src).length) :
    (wireFrame src)[k] = fend ↔ k = 0 ∨ k + 1 = (wireFrame src).length := by
  have hlen : (wireFrame src).length = (src.flatMap image).length + 2 := by rw [wireFrame_length, images_length]
  cases k with
  | zero => exact iff_of_true rfl (.inl rfl)
  | succ k =>
    simp only [wireFrame, List.getElem_cons_succ]
    rcases Nat.lt_or_ge k (src.flatMap image).length with hlt | hge
    · rw [List.getElem_append_left hlt]
      refine iff_of_false (fun h => fend_not_mem_images src (h ▸ List.getElem_mem hlt)) ?_
      rw [← wireFrame]
      omega
    · have hlast : k = (src.flatMap image).length := by omega
      subst hlast
      exact iff_of_true (List.getElem_concat_length rfl _) (.inr hlen.symm)

/-- Settles O40: the items are the images of the source. -/
theorem encOutputShape : Obligations.EncOutputShape := by
  intro s src dstCap hne hcap
  obtain ⟨t, ht, hres⟩ := exec_enc_returns_wireFrame hne hcap s
  refine ⟨t, wireFrame src, ht, hres, fun k => wireFrame_getElem_eq_fend_iff src, wireFrame_escapesPaired src,
    src.map image, List.length_map _, by rw [← List.flatMap_def]; rfl, fun item hitem => ?_⟩
  obtain ⟨v, -, rfl⟩ := List.mem_map.1 hitem
  exact image_cases v

/-! ## The encoder and the decoder apart (R149) -/

theorem execEnc_sameDecoder {src : List Byte} {dstCap : Nat} {s t : State} (h : execEnc src dstCap s = .next t) :
    SameDecoder s t ∧ t.cfg = s.cfg ∧ t.epoch = s.epoch := by
  rcases execEnc_fits src dstCap s with ⟨error, e⟩ | ⟨hfit, e⟩
  · cases e.symm.trans h
    exact ⟨⟨rfl, rfl, fun _ => rfl⟩, rfl, rfl⟩
  · obtain ⟨d, hd, -⟩ := encFrame_writes_wireFrame hfit s
    cases (e.trans hd).symm.trans h
    exact ⟨⟨rfl, rfl, fun _ => rfl⟩, rfl, rfl⟩

theorem execDecRead_sameDecoder {addr : Nat} {s t : State} (h : execDecRead addr s = .next t) :
    SameDecoder s t ∧ t.cfg = s.cfg ∧ t.epoch = s.epoch := by
  rcases execDecRead_cases addr s with ⟨-, e⟩ | ⟨-, e⟩ <;> cases e.symm.trans h <;>
    exact ⟨⟨rfl, rfl, fun _ => rfl⟩, rfl, rfl⟩

/-- What ENC returns depends on its arguments alone: one result serves every state. -/
theorem exec_enc_result (src : List Byte) (dstCap : Nat) :
    ∃ o, ∀ s t, exec (.enc src dstCap) s = .next t → t.results = s.results ++ [o] := by
  by_cases hne : src = []
  · subst hne
    exact ⟨⟨.enc 0 .noEvent, []⟩, fun s t h => by cases (exec_enc_nil dstCap s).symm.trans h; rfl⟩
  · rcases Nat.lt_or_ge dstCap (src.length + escapeCount src + 2) with hshort | hfits
    · exact ⟨⟨.enc 0 .encCapacity, []⟩, fun s t h => by cases (exec_enc_short hne hshort s).symm.trans h; rfl⟩
    · refine ⟨⟨.enc (wireFrame src).length .noEvent, wireFrame src⟩, fun s t h => ?_⟩
      obtain ⟨d, hd, -⟩ := exec_enc_fits hne hfits s
      cases hd.symm.trans h
      rfl

/-- Settles O41. -/
theorem encoderIsPure : Obligations.EncoderIsPure := by
  refine ⟨fun s t i hi h => ?_, fun s s' t t' i hi h h' => ?_⟩
  · rcases hi with ⟨src, rfl⟩ | ⟨src, dstCap, rfl⟩ | ⟨addr, rfl⟩
    · cases h
      exact ⟨⟨rfl, rfl, fun _ => rfl⟩, rfl, rfl⟩
    · exact execEnc_sameDecoder h
    · exact execDecRead_sameDecoder h
  · rcases hi with ⟨src, rfl⟩ | ⟨src, dstCap, rfl⟩
    · cases h
      cases h'
      exact ⟨_, rfl, rfl⟩
    · obtain ⟨o, ho⟩ := exec_enc_result src dstCap
      exact ⟨o, ho s t h, ho s' t' h'⟩

end Sys2Proof.Machine

/-! SUPPORT. The exceptions (60_exceptions.md): every command completes (R171), and when a decode step raises an event
it is the abort (R161, R162, R166, R169). -/

namespace Sys2Proof.Machine

/-! ## Completion (R171) -/

theorem execEnc_completes (src : List Byte) (dstCap : Nat) (s : State) : ∃ t, execEnc src dstCap s = .next t := by
  rcases execEnc_fits src dstCap s with ⟨_, e⟩ | ⟨hfit, e⟩
  · exact ⟨_, e⟩
  · obtain ⟨_, hframe, -⟩ := encFrame_writes_wireFrame hfit s
    exact ⟨_, e.trans hframe⟩

/-- No command of the host stops, in any state. -/
theorem exec_command_completes (c : Command) (s : State) : ∃ t, exec c.toInstr s = .next t := by
  cases c with
  | decByte | decBuf | encSize | reset => exact ⟨_, rfl⟩
  | decRead addr => rcases execDecRead_cases addr s with ⟨-, e⟩ | ⟨-, e⟩ <;> exact ⟨_, e⟩
  | enc src dstCap => exact execEnc_completes src dstCap s

/-- Settles O19: the step takes its command off, and no instruction touches the commands after it. -/
theorem everyCommandCompletes : Obligations.EveryCommandCompletes := by
  intro s c rest hp
  obtain ⟨t, ht⟩ := exec_command_completes c { s with pending := rest }
  exact ⟨t, (step_of_pending_cons hp).trans ht, (exec_atMostOneResult ht).pending⟩

/-! ## The events of a decode step -/

theorem dstep_event_eq_listing (b : Byte) (s : State) : (dstep b s).2.event = (listing s b).event := by
  obtain ⟨d, hstep, -⟩ := dstep_performs_listing b s
  rw [hstep]

/-- The event of a decode step: BAD_ESCAPE for an escape that is neither of the two, at any cursor (R161), and
FRAME_TOO_LARGE at a full buffer for a byte that would be appended (R162). -/
theorem dstep_event_eq (b : Byte) (s : State) :
    (dstep b s).2.event =
      if s.fsm = .inFrameEscape ∧ ¬(b = tfend ∨ b = tfesc) then .badEscape
      else if s.cfg.maxFrame ≤ s.wcur ∧
        ((s.fsm = .inFrame ∧ b ≠ fend ∧ b ≠ fesc) ∨ (s.fsm = .inFrameEscape ∧ (b = tfend ∨ b = tfesc))) then
        .frameTooLarge
      else .noEvent := by
  rw [dstep_event_eq_listing]
  cases hf : s.fsm <;> simp only [listing, hf]
  case idle => by_cases hb : b = fend <;> simp [hb]
  case inFrame =>
    by_cases h1 : b = fesc
    · simp [h1]
    · by_cases h2 : b = fend
      · by_cases hw : 0 < s.wcur <;> simp [h2, hw]
      · by_cases hw : s.wcur < s.cfg.maxFrame <;> simp [h1, h2, hw, not_lt.1]
  case inFrameEscape =>
    by_cases hb : b = tfend ∨ b = tfesc
    · by_cases hw : s.wcur < s.cfg.maxFrame <;> simp [hb, hw, not_lt.1]
    · simp [hb]

theorem dstep_event_eq_badEscape_iff (b : Byte) (s : State) :
    (dstep b s).2.event = .badEscape ↔ s.fsm = .inFrameEscape ∧ b ≠ tfend ∧ b ≠ tfesc := by
  rw [← not_or, dstep_event_eq]
  split_ifs with hbad
  · exact iff_of_true rfl hbad
  all_goals exact iff_of_false nofun hbad

theorem dstep_event_eq_frameTooLarge_iff (b : Byte) (s : State) :
    (dstep b s).2.event = .frameTooLarge ↔ s.cfg.maxFrame ≤ s.wcur ∧
      ((s.fsm = .inFrame ∧ b ≠ fend ∧ b ≠ fesc) ∨ (s.fsm = .inFrameEscape ∧ (b = tfend ∨ b = tfesc))) := by
  rw [dstep_event_eq]
  split_ifs with hbad hfull
  · obtain ⟨hf, hb⟩ := hbad
    simp [hf, hb]
  · exact iff_of_true rfl hfull
  · exact iff_of_false nofun hfull

/-- A decode step that raises an event is the abort with that cause (R166, R169). -/
theorem dstep_eq_abort {b : Byte} {s : State} (h : (dstep b s).2.event ≠ .noEvent) :
    dstep b s = abort (dstep b s).2.event s := by
  rcases dstep_cases b s with ⟨-, -, e⟩ | ⟨-, -, e⟩ | ⟨-, -, e⟩ | ⟨-, -, -, e⟩ | ⟨-, -, -, e⟩ | ⟨-, -, -, -, e⟩ |
    ⟨-, -, -, -, e⟩ | ⟨-, -, -, e⟩ | ⟨-, -, -, e⟩ | ⟨-, -, -, e⟩ | ⟨-, -, -, e⟩ <;> rw [e] at h ⊢
  any_goals exact absurd rfl h
  all_goals rfl

/-- Settles O23: within `MAX_FRAME` the buffer is full where the cursor is at it. -/
theorem eventsAndTheAbort : Obligations.EventsAndTheAbort := by
  intro s b hw
  obtain ⟨-, -, -, -, -, hresults⟩ := dstep_frame b s
  refine ⟨returnStep (dstep b s), (dstep b s).2.frame, (dstep b s).2.event, _, rfl,
    congrArg (· ++ _) hresults, dstep_event_eq_badEscape_iff b s, ?_, ?_, fun hraised => ?_⟩
  · rw [← hw.ge_iff_eq]
    exact dstep_event_eq_frameTooLarge_iff b s
  · rcases dstep_event b s with e | e | e <;> rw [e] <;> nofun
  · rw [dstep_eq_abort hraised, returnStep_abort]
    exact ⟨rfl, rfl, rfl, rfl⟩

end Sys2Proof.Machine

/-! SUPPORT. What RESET leaves (70_reset_and_hazards.md R190), and the delimiter between two frames (R201): the FEND that
closes a frame does not open the next one. -/

namespace Sys2Proof.Machine

/-! ## RESET -/

/-- The state after a RESET: between frames, no cell of the buffer written, the next draw of unspecified bytes. -/
def cleared (s : State) : State := { toIdle s with dbuf := [], epoch := s.epoch + 1 }

theorem exec_reset (s : State) : exec .reset s = .next (cleared s) := rfl

/-- No cell is listed after RESET, so each reads as the free value of the new draw (10_state.md R34). -/
theorem cleared_readDbuf (s : State) (a : Nat) : (cleared s).readDbuf a = Config.resetByte (s.epoch + 1) a := rfl

/-- Settles O46. -/
theorem resetReturnsToBetweenFrames : Obligations.ResetReturnsToBetweenFrames :=
  fun s => ⟨cleared s, exec_reset s, rfl, rfl, rfl, rfl, cleared_readDbuf s, rfl, rfl, rfl, rfl, rfl⟩

/-! ## The delimiter between two frames -/

/-- A DEC_BUF that starts with the wire form of a payload that fits reports it and reads nothing beyond
(41_decoder_commands.md R121, R131). -/
theorem exec_decBuf_wireFrame_append {p : List Byte} {s : State} (hne : p ≠ []) (hfit : p.length ≤ s.cfg.maxFrame)
    (rest : List Byte) :
    exec (.decBuf (wireFrame p ++ rest)) s =
      .next ((received p (toIdle s)).report (.buf (some p.length) (wireFrame p).length []) p) := by
  have hframe := bufLoop_wireFrame (toIdle_awaitsFrame s) hne hfit
  rw [exec_decBuf, bufLoop_append_some (by rw [hframe]), hframe, returnBuf]
  simp only [State.frameContent, received_payload]

/-- A DEC_BUF of noise and one FEND reports nothing and opens a frame (40_decoder_steps.md R92, R91). -/
theorem exec_decBuf_noise_fend {w : List Byte} (hw : fend ∉ w) (s : State) :
    exec (.decBuf (w ++ [fend])) s = .next ((opened s).report (.buf none (w.length + 1) []) []) := by
  rw [exec_decBuf, bufLoop_noise_fend (toIdle_fsm s) hw, Nat.zero_add]
  rfl

/-- Settles O53: CLOSE leaves the decoder in Idle, where the images of the second payload are noise (R94, R201). -/
theorem sharedDelimiterLosesTheSecondFrame : Obligations.SharedDelimiterLosesTheSecondFrame := by
  intro s p q hne hfit
  have hfirst := exec_decBuf_wireFrame_append hne hfit (q.flatMap image ++ [fend])
  rw [← List.append_assoc] at hfirst
  refine ⟨_, _, hfirst, ?_, rfl, rfl, exec_decBuf_noise_fend (fend_not_mem_images q) _, rfl⟩
  rw [report_results, received_results, toIdle_results]

end Sys2Proof.Machine
